-- ==== Sys2Proof/Word.lean ====
section
/-! DEFINITION. The words of the unit: one-bit cells, 8-bit registers and characters, coordinate
registers, and decimal digits. -/

namespace Sys2Proof

/-- A one-bit cell: a pixel of `RAS` (R51), a pattern element of `PAT` (R28), a flag of `STATUS` (R24). -/
abbrev Bit := BitVec 1

/-- An 8-bit register or character (R11, R22). -/
abbrev Byte := BitVec 8

/-- A coordinate register, `CW` = 16 bits wide (R6, R22). -/
abbrev Coord := BitVec 16

/-- A decimal digit value, 0 to 9 (R90). -/
abbrev Digit := Fin 10

end Sys2Proof
end

