-- ==== Sys2Proof/Config.lean ====
section
/-! DEFINITION. The parameters of R6 and the free values.

`LTAB` and `RTAB` (R80, R81) stand in Machine/Tables.lean. `HOSTBUS` is read by no rule and is not
represented (R6, D30). -/

namespace Sys2Proof.Config

/-- `CW`, the width of the coordinate registers: 16 for this hardware (R6, D4). -/
def CW : Nat := 16

/-- One less than `RASTER_CAP`. Opaque: the spec leaves the capacity OPEN (R6, D5; log entry 1). -/
opaque rasterCapPred : Nat

/-- `RASTER_CAP`, the number of cells of `RAS`. All that is known of it is `1 <= RASTER_CAP` (R6). -/
def rasterCap : Nat := rasterCapPred + 1

/-- FREE VALUE: the unspecified bit that cell `a` of `RAS` holds after the `epoch`-th reset, until the
host writes the cell (R41, U7; log entry 2). -/
opaque rasAfterReset (epoch a : Nat) : Bit

/-- The fixed length of an identifier (R6). -/
def idLength : Nat := 8

/-- The fixed length of a pattern (R6). -/
def patLength : Nat := 67

end Sys2Proof.Config
end

