-- ==== Sys2Proof/Syntax.lean ====
section
/-! DEFINITION. The commands, the registers, and the events by which the host drives the unit. -/

namespace Sys2Proof

/-- The seven commands (R71), one constructor per row of spec/opcode_table.json. No command carries an
operand (R72). -/
inductive Instr where
  /-- `CHK`, compute the check digit (R96). -/
  | chk
  /-- `VAL`, validate an identifier (R97). -/
  | val
  /-- `ENC`, encode an identifier into a pattern (R98). -/
  | enc
  /-- `DEC`, decode a pattern into an identifier (R99). -/
  | dec
  /-- `SMP`, sample one bit (R122). -/
  | smp
  /-- `EXT`, extract a 67-element pattern (R123). -/
  | ext
  /-- `LOC`, locate and decode a symbol in the raster (R138). -/
  | loc
  deriving DecidableEq, Repr

/-- The registers of the register space `REG` (R22). -/
inductive Reg where
  | cmd | status | ckd | idlen | patlen | w | h | row | col | mw | lmw | lrow | lcol
  /-- `IDBUF[i]` -/
  | idbuf (i : Fin 8)
  /-- `PAT[k]` -/
  | pat (k : Fin 67)
  deriving DecidableEq, Repr

/-- What can happen to the unit from outside, one event a step: the four host primitives of R38, by
register or cell number, and the reset event of R175. -/
inductive HostEvent where
  /-- `HostRead(r)` -/
  | read (r : Nat)
  /-- `HostWrite(r, v)`; with `r` the number of `CMD` it executes the command word `v` (R23). -/
  | write (r v : Nat)
  /-- `HostReadRas(a)` -/
  | readRas (a : Nat)
  /-- `HostWriteRas(a, b)` -/
  | writeRas (a : Nat) (b : Bit)
  /-- The reset input (R175). -/
  | reset
  deriving DecidableEq, Repr

end Sys2Proof
end

