-- ==== Sys2Proof/Machine/RegMap.lean ====
section
/-! DEFINITION. The register map of R22: numbers, widths and the host's access rights. -/

namespace Sys2Proof

/-- The number of a register (R22, column "No."). -/
def Reg.number : Reg → Nat
  | .cmd => 0x00 | .status => 0x01 | .ckd => 0x02 | .idlen => 0x03 | .patlen => 0x04
  | .w => 0x05 | .h => 0x06 | .row => 0x07 | .col => 0x08 | .mw => 0x09
  | .lmw => 0x0A | .lrow => 0x0B | .lcol => 0x0C
  | .idbuf i => 0x10 + i.val
  | .pat k => 0x40 + k.val

/-- The width of a register in bits (R22, column "width"). -/
def Reg.width : Reg → Nat
  | .cmd | .status | .idlen | .patlen => 8
  | .ckd => 4
  | .w | .h | .row | .col | .mw | .lmw | .lrow | .lcol => Config.CW
  | .idbuf _ => 8
  | .pat _ => 1

/-- The read-only registers, on which a host write has no effect (R39). -/
def Reg.readOnly : Reg → Bool
  | .status | .ckd | .lmw | .lrow | .lcol => true
  | .cmd | .idlen | .patlen | .w | .h | .row | .col | .mw | .idbuf _ | .pat _ => false

/-- The register a number names; none for an unmapped number (R22, R40). -/
def regOf (n : Nat) : Option Reg :=
  if h : 0x40 ≤ n ∧ n < 0x40 + 67 then some (.pat ⟨n - 0x40, by omega⟩)
  else if h : 0x10 ≤ n ∧ n < 0x10 + 8 then some (.idbuf ⟨n - 0x10, by omega⟩)
  else
    match n with
    | 0x00 => some .cmd | 0x01 => some .status | 0x02 => some .ckd
    | 0x03 => some .idlen | 0x04 => some .patlen
    | 0x05 => some .w | 0x06 => some .h
    | 0x07 => some .row | 0x08 => some .col | 0x09 => some .mw
    | 0x0A => some .lmw | 0x0B => some .lrow | 0x0C => some .lcol
    | _ => none

end Sys2Proof
end

