-- ==== Sys2Proof/WellFormed.lean ====
section
/-! DEFINITION. What a well-formed command, host event and parameter set are. -/

namespace Sys2Proof

/-- A command has no operand that could be ill formed (R72, R74): each is well formed. -/
def Instr.wellFormed : Instr → Bool
  | .chk | .val | .enc | .dec | .smp | .ext | .loc => true

/-- A host event the spec gives a meaning: a mapped register (R40), a written value that fits the
register (R38), a cell below the capacity (R40). -/
def HostEvent.wellFormed (rasterCap : Nat) : HostEvent → Bool
  | .read r => (regOf r).isSome
  | .write r v =>
    match regOf r with
    | some reg => decide (v < 2 ^ reg.width)
    | none => false
  | .readRas a => decide (a < rasterCap)
  | .writeRas a _ => decide (a < rasterCap)
  | .reset => true

/-- The constraints R6 puts on `CW` and `RASTER_CAP`. -/
def Config.wellFormed (cw rasterCap : Nat) : Bool :=
  decide (7 ≤ cw) && decide (1 ≤ rasterCap)

end Sys2Proof
end

