-- ==== Sys2Proof/Decode.lean ====
section
/-! DEFINITION. The command word (R70, R71, R73): decoder and encoder. -/

namespace Sys2Proof

/-- Why a command word selects no command (R73). -/
inductive DecodeError where
  /-- Bits 7:4 are not zero. -/
  | zeroFieldNotZero
  /-- Bits 7:4 are zero and the opcode is 0x0 or 0x8 to 0xF. -/
  | reservedOpcode
  deriving DecidableEq, Repr

/-- The field `zero`, bits 7:4 of a command word (R70). -/
def zeroField (c : Byte) : BitVec 4 := c.extractLsb' 4 4

/-- The field `op`, bits 3:0 of a command word (R70). -/
def opField (c : Byte) : BitVec 4 := c.extractLsb' 0 4

/-- The command an opcode selects (R71); none for a reserved one (R73). -/
def commandOf (op : BitVec 4) : Option Instr :=
  match op.toNat with
  | 0x1 => some .chk
  | 0x2 => some .val
  | 0x3 => some .enc
  | 0x4 => some .dec
  | 0x5 => some .smp
  | 0x6 => some .ext
  | 0x7 => some .loc
  | _ => none

/-- The command a word written to `CMD` selects (R71), or why it selects none (R73). -/
def decode (c : Byte) : Except DecodeError Instr :=
  if zeroField c ≠ 0 then .error .zeroFieldNotZero
  else
    match commandOf (opField c) with
    | some i => .ok i
    | none => .error .reservedOpcode

/-- The opcode of a command (R71, column "op"). -/
def opcode : Instr → BitVec 4
  | .chk => 0x1
  | .val => 0x2
  | .enc => 0x3
  | .dec => 0x4
  | .smp => 0x5
  | .ext => 0x6
  | .loc => 0x7

/-- The command word of a command: four zero bits, then the opcode (R70). -/
def encode (i : Instr) : Byte := (0 : BitVec 4) ++ opcode i

/-- The instruction the decoder reads from a table word of `nbits` bits. A command is one 8-bit word
(R74), so a word with a bit set above bit 7 is none. -/
def decodeTableWord (nbits w : Nat) : Option Instr :=
  let c := w % 2 ^ nbits
  if c < 256 then
    match decode (BitVec.ofNat 8 c) with
    | .ok i => some i
    | .error _ => none
  else none

end Sys2Proof
end

