-- ==== Sys2Proof/Machine/State.lean ====
section
/-! DEFINITION. The state of the unit (R21, R22, R32) and the model's own fields beside it; the reasons
a step can stop; the state after reset (R41). -/

namespace Sys2Proof.Machine

/-- The outcome codes of R150. -/
inductive OutcomeCode where
  | ok
  | identifierFormatError
  | checksumError
  | structureError
  | unknownSymbolError
  | notFoundError
  | rangeError
  | illegalCommand
  deriving DecidableEq, Repr

/-- The fields of `STATUS` (R24). Its reserved bits 3 and 6 are never written and read 0; they are no
field here and stand in `Status.word` as zeros. -/
structure Status where
  /-- `CODE`, bits 2:0: the outcome of the last command. -/
  code : OutcomeCode
  /-- `VALID`, bit 4: written by `VAL` only. -/
  valid : Bit
  /-- `BIT`, bit 5: written by `SMP` only. -/
  bit : Bit
  /-- `FLT`, bit 7: sticky fault flag. -/
  flt : Bit
  deriving DecidableEq, Repr

/-- The cells of `RAS` that the host has written since the last reset, by rising cell number (R50, R51). -/
abbrev Memory := List (Nat × Bit)

/-- The state: the registers of R22 and the raster space of R32, then the model's own fields. -/
structure State where
  /-- `STATUS` (R24) -/
  status : Status
  /-- `CKD` (R25) -/
  ckd : BitVec 4
  /-- `IDLEN` (R26) -/
  idlen : Byte
  /-- `IDBUF[0..7]` (R26), index 0 the leftmost digit -/
  idbuf : Vector Byte 8
  /-- `PATLEN` (R27) -/
  patlen : Byte
  /-- `PAT[0..66]` (R28), by offset -/
  pat : Vector Bit 67
  /-- `W` (R29) -/
  w : Coord
  /-- `H` (R29) -/
  h : Coord
  /-- `ROW` (R30) -/
  row : Coord
  /-- `COL` (R30) -/
  col : Coord
  /-- `MW` (R30) -/
  mw : Coord
  /-- `LMW` (R31) -/
  lmw : Coord
  /-- `LROW` (R31) -/
  lrow : Coord
  /-- `LCOL` (R31) -/
  lcol : Coord
  /-- `RAS` (R32, R51) -/
  ras : Memory
  /-- The model's own: the parameter `RASTER_CAP` (R6; log entry 1). No step changes it. -/
  rasterCap : Nat
  /-- The model's own: how many resets have happened since power-on (log entry 2). -/
  resets : Nat
  /-- The model's own: the host's events not yet performed, the next one first (log entry 4). -/
  pending : List HostEvent
  /-- The model's own: the values returned to the host's reads, the latest first (log entry 5). -/
  returned : List Nat
  deriving DecidableEq, Repr

/-- Reasons to stop with a fault. There is none: what the spec calls a fault (R152) is an outcome code
left in `STATUS`, after which the unit goes on (R155). -/
inductive Fault where
  deriving DecidableEq, Repr

/-- Reasons for which a step has no meaning. -/
inductive Refusal where
  /-- Raised by `exec` for a command without a meaning; safe. No arm raises it. -/
  | notModelled (mnemonic : String)
  /-- Raised by a host read or write of an unmapped register number (R40, U8: "a model refuses them"); safe. -/
  | unmappedRegister (number : Nat)
  /-- Raised by a host write of a value that does not fit the register (R38, U9); safe. -/
  | valueTooWide (number value : Nat)
  /-- Raised by a host access to a cell `a >= RASTER_CAP` (R40, U8); safe. -/
  | cellOutOfCapacity (cell : Nat)
  deriving DecidableEq, Repr

/-- The state right after reset (R41, R175): every register 0, `CODE` = `OK`, nothing known of `RAS`.
The last four fields are the model's own. -/
def State.reset : State where
  status := { code := .ok, valid := 0, bit := 0, flt := 0 }
  ckd := 0
  idlen := 0
  idbuf := Vector.replicate 8 0
  patlen := 0
  pat := Vector.replicate 67 0
  w := 0
  h := 0
  row := 0
  col := 0
  mw := 0
  lmw := 0
  lrow := 0
  lcol := 0
  ras := []
  rasterCap := Config.rasterCap
  resets := 0
  pending := []
  returned := []

end Sys2Proof.Machine
end

