-- ==== Sys2Proof/Machine/Flags.lean ====
section
/-! DEFINITION. The `STATUS` register: outcome code numbers (R150), faults (R152), the word the host
reads (R24), and how an outcome changes it (R14). -/

namespace Sys2Proof.Machine

/-- The number of an outcome code (R150). -/
def OutcomeCode.number : OutcomeCode → BitVec 3
  | .ok => 0
  | .identifierFormatError => 1
  | .checksumError => 2
  | .structureError => 3
  | .unknownSymbolError => 4
  | .notFoundError => 5
  | .rangeError => 6
  | .illegalCommand => 7

/-- Codes 6 and 7 are faults; codes 1 to 5 are errors (R152). -/
def OutcomeCode.isFault : OutcomeCode → Bool
  | .rangeError | .illegalCommand => true
  | .ok | .identifierFormatError | .checksumError | .structureError | .unknownSymbolError
  | .notFoundError => false

/-- `STATUS` as the host reads it: `FLT`, 0, `BIT`, `VALID`, 0, `CODE` from bit 7 down (R24). -/
def Status.word (f : Status) : Byte :=
  f.flt ++ (0 : Bit) ++ f.bit ++ f.valid ++ (0 : Bit) ++ f.code.number

/-- `STATUS` after an outcome: `CODE` is written; a fault also sets `FLT`, which nothing else than reset
clears (R14, R152). -/
def Status.withOutcome (c : OutcomeCode) (f : Status) : Status :=
  { f with code := c, flt := if c.isFault then 1 else f.flt }

end Sys2Proof.Machine
end

