-- ==== Sys2Proof/Machine/Ops.lean ====
section
/-! DEFINITION. The shared operations: cells of `RAS`, ending a command, writing its destinations, and
the reset event. -/

namespace Sys2Proof.Machine

/-! ### Cells of `RAS` -/

/-- The bit the host wrote to cell `a`, if it has written it since the last reset. -/
def Memory.lookup : Memory → Nat → Option Bit
  | [], _ => none
  | (a', b) :: rest, a => if a' = a then some b else Memory.lookup rest a

/-- Memory after cell `a` is written with `b`: the entry is put in its place by cell number. -/
def Memory.write : Memory → Nat → Bit → Memory
  | [], a, b => [(a, b)]
  | (a', b') :: rest, a, b =>
    if a < a' then (a, b) :: (a', b') :: rest
    else if a = a' then (a, b) :: rest
    else (a', b') :: Memory.write rest a b

/-- The canonical form: cell numbers strictly rising. An unlisted cell has no known bit
(`Memory.lookup` answers none), so no entry can equal what an unlisted one holds (log entry 3). -/
abbrev Memory.wf (m : Memory) : Prop := m.Pairwise fun x y => x.1 < y.1

/-- Every listed cell exists (R50). -/
abbrev Memory.within (cap : Nat) (m : Memory) : Prop := ∀ c ∈ m, c.1 < cap

/-- What a cell holds that has not been written since the last reset: the free value (R41, U7). -/
def unwrittenCell (epoch a : Nat) : Bit := Config.rasAfterReset epoch a

/-- `MemRead(a, 1)`: the bit in cell `a` (R13). -/
def State.memRead (s : State) (a : Nat) : Bit :=
  (Memory.lookup s.ras a).getD (unwrittenCell s.resets a)

/-- `MemWrite(a, 1, b)`, which only the host's `HostWriteRas` performs (R13). -/
def State.memWrite (s : State) (a : Nat) (b : Bit) : State :=
  { s with ras := Memory.write s.ras a b }

/-! ### Ending a command -/

/-- `complete(c)` and `raise <Kind>` of R14: `CODE` is written, and `FLT` set if `c` is a fault. Nothing is
saved, no mode changes, control goes nowhere (R154). -/
def State.complete (c : OutcomeCode) (s : State) : State :=
  { s with status := s.status.withOutcome c }

/-! ### Destinations of the commands -/

/-- Write `CKD` (R96). -/
def State.setCkd (d : Digit) (s : State) : State := { s with ckd := BitVec.ofNat 4 d.val }

/-- Write `STATUS.VALID` (R97). -/
def State.setValid (b : Bit) (s : State) : State := { s with status := { s.status with valid := b } }

/-- Write `STATUS.BIT` (R122). -/
def State.setBit (b : Bit) (s : State) : State := { s with status := { s.status with bit := b } }

/-- `digitChar(d)`, the character of a digit (R11). -/
def digitChar (d : Digit) : Byte := BitVec.ofNat 8 (0x30 + d.val)

/-- Write all eight cells of `IDBUF`, and `IDLEN <- 8` (R99, R138). -/
def State.setIdentifier (d : Vector Digit 8) (s : State) : State :=
  { s with idbuf := Vector.ofFn fun i : Fin 8 => digitChar d[i], idlen := 8 }

/-- Write all 67 cells of `PAT`, and `PATLEN <- 67` (R98, R123). -/
def State.setPattern (p : Vector Bit 67) (s : State) : State := { s with pat := p, patlen := 67 }

/-- Write `LMW`, `LROW`, `LCOL` (R138). -/
def State.setMatch (mw row col : Nat) (s : State) : State :=
  { s with lmw := BitVec.ofNat 16 mw, lrow := BitVec.ofNat 16 row, lcol := BitVec.ofNat 16 col }

/-! ### Reset and the host's read values -/

/-- The reset event (R175): every register takes its reset value and `RAS` is unspecified anew. The
capacity and the host's own lists are not the unit's and stay (log entry 9). -/
def State.resetUnit (s : State) : State :=
  { State.reset with
    rasterCap := s.rasterCap, resets := s.resets + 1, pending := s.pending, returned := s.returned }

/-- Hand a value to the host (R38). -/
def State.giveHost (v : Nat) (s : State) : State := { s with returned := v :: s.returned }

end Sys2Proof.Machine
end

