-- ==== Sys2Proof/Machine/Operands.lean ====
section
/-! DEFINITION. The operand forms: identifier characters and strings (R11, R90, R91), slices of a
pattern (R9), pixels and raster geometry (R52, R53), and the range conditions of the sampler. -/

namespace Sys2Proof.Machine

/-! ### Identifiers -/

/-- `isDigitChar(c)` (R11). -/
abbrev isDigitChar (c : Byte) : Prop := 0x30 ≤ c.toNat ∧ c.toNat ≤ 0x39

/-- `digitVal(c) = c - 0x30` (R11). It is asked of digit characters only (R90); the reduction modulo 10
makes it total (log entry 10). -/
def digitVal (c : Byte) : Digit := ⟨(c.toNat - 0x30) % 10, Nat.mod_lt _ (by decide)⟩

/-- `wellFormedId(len, buf)` (R91). -/
abbrev wellFormedId (len : Byte) (buf : Vector Byte 8) : Prop :=
  len.toNat = 8 ∧ ∀ i : Fin 8, isDigitChar buf[i]

/-- The condition under which `CHK` computes: at least seven characters are presented and the first
seven are digits (R96). -/
abbrev wellFormedPrefix (len : Byte) (buf : Vector Byte 8) : Prop :=
  7 ≤ len.toNat ∧ ∀ i : Fin 7, isDigitChar (buf[i.val]'(by omega))

/-- `digits(buf)` (R90). -/
def digits (buf : Vector Byte 8) : Vector Digit 8 := Vector.ofFn fun i : Fin 8 => digitVal buf[i]

/-! ### Patterns -/

/-- `p[off .. off + len - 1]` (R9). -/
def slice (p : Vector Bit 67) (off len : Nat) (h : off + len ≤ 67 := by decide) : Vector Bit len :=
  Vector.ofFn fun j : Fin len => p[off + j.val]

/-! ### The raster -/

/-- `Pixel(row, col)` (R52, R53). -/
def State.pixel (s : State) (row col : Nat) : Bit := s.memRead (row * s.w.toNat + col)

/-- `GeomOK` (R53). -/
abbrev State.geomOK (s : State) : Prop := s.w.toNat * s.h.toNat ≤ s.rasterCap

/-- The condition under which `SMP` (with `run` = 1 module) and `EXT` (with `run` = 67 modules) raise
`RangeError` (R122, R123). Sums and products are over the naturals. -/
abbrev State.rangeBad (s : State) (run : Nat) : Prop :=
  s.mw.toNat = 0 ∨ s.h.toNat ≤ s.row.toNat ∨ s.w.toNat < s.col.toNat + run * s.mw.toNat ∨
    s.rasterCap < s.w.toNat * s.h.toNat

end Sys2Proof.Machine
end

