-- ==== Sys2Proof/Machine/Tables.lean ====
section
/-! DEFINITION. The code tables `LTAB` (R80) and `RTAB` (R81), the guards (R79), and table lookup (R94).
The table values are the spec's, from general knowledge (G1; log entry 7). -/

namespace Sys2Proof.Machine

/-- A 7-bit code string, its leftmost character at offset 0 (R79). -/
abbrev Code := Vector Bit 7

/-- `LTAB` (R80). -/
def ltab : Vector Code 10 := #v[
  #v[0, 0, 0, 1, 1, 0, 1],
  #v[0, 0, 1, 1, 0, 0, 1],
  #v[0, 0, 1, 0, 0, 1, 1],
  #v[0, 1, 1, 1, 1, 0, 1],
  #v[0, 1, 0, 0, 0, 1, 1],
  #v[0, 1, 1, 0, 0, 0, 1],
  #v[0, 1, 0, 1, 1, 1, 1],
  #v[0, 1, 1, 1, 0, 1, 1],
  #v[0, 1, 1, 0, 1, 1, 1],
  #v[0, 0, 0, 1, 0, 1, 1]]

/-- `RTAB` (R81). -/
def rtab : Vector Code 10 := #v[
  #v[1, 1, 1, 0, 0, 1, 0],
  #v[1, 1, 0, 0, 1, 1, 0],
  #v[1, 1, 0, 1, 1, 0, 0],
  #v[1, 0, 0, 0, 0, 1, 0],
  #v[1, 0, 1, 1, 1, 0, 0],
  #v[1, 0, 0, 1, 1, 1, 0],
  #v[1, 0, 1, 0, 0, 0, 0],
  #v[1, 0, 0, 0, 1, 0, 0],
  #v[1, 0, 0, 1, 0, 0, 0],
  #v[1, 1, 1, 0, 1, 0, 0]]

/-- The start and end guard `"101"` (R79). -/
def sideGuard : Vector Bit 3 := #v[1, 0, 1]

/-- The centre guard `"01010"` (R79). -/
def centreGuard : Vector Bit 5 := #v[0, 1, 0, 1, 0]

/-- The digit whose code in the table is the group, if there is one (R94 steps 3 and 4). -/
def lookupCode (table : Vector Code 10) (group : Code) : Option Digit :=
  (List.finRange 10).find? fun d => decide (table[d] = group)

end Sys2Proof.Machine
end

