-- ==== Sys2Proof/Machine/Codec.lean ====
section
/-! DEFINITION. The Digit Codec (40_codec.md): its functions, and the commands `CHK`, `VAL`, `ENC`, `DEC`. -/

namespace Sys2Proof.Machine

/-! ### Functions -/

/-- The weighted sum of R92. -/
def weightedSum (d0 d1 d2 d3 d4 d5 d6 : Digit) : Nat :=
  3 * d0.val + d1.val + 3 * d2.val + d3.val + 3 * d4.val + d5.val + 3 * d6.val

/-- `checksum7` (R92). -/
def checksum7 (d0 d1 d2 d3 d4 d5 d6 : Digit) : Digit :=
  ⟨(10 - weightedSum d0 d1 d2 d3 d4 d5 d6 % 10) % 10, Nat.mod_lt _ (by decide)⟩

/-- `cksumOK`, the checksum test alone (R95). -/
abbrev cksumOK (d : Vector Digit 8) : Prop := d[7] = checksum7 d[0] d[1] d[2] d[3] d[4] d[5] d[6]

/-- `validId` (R95). -/
abbrev validId (len : Byte) (buf : Vector Byte 8) : Prop :=
  wellFormedId len buf ∧ cksumOK (digits buf)

/-- `enc67` (R93). -/
def enc67 (d : Vector Digit 8) : Vector Bit 67 :=
  sideGuard ++ ltab[d[0]] ++ ltab[d[1]] ++ ltab[d[2]] ++ ltab[d[3]]
    ++ centreGuard ++ rtab[d[4]] ++ rtab[d[5]] ++ rtab[d[6]] ++ rtab[d[7]] ++ sideGuard

/-- What `dec67` returns (R94). -/
inductive Decoded where
  | ok (d : Vector Digit 8)
  | structureError
  | unknownSymbolError
  deriving DecidableEq, Repr

/-- The three guard tests of R94 step 2. -/
abbrev guardsOK (p : Vector Bit 67) : Prop :=
  slice p 0 3 = sideGuard ∧ slice p 31 5 = centreGuard ∧ slice p 64 3 = sideGuard

/-- R94 steps 3 and 4: `LTAB` for the left groups, `RTAB` for the right ones (R83). -/
def decodeGroups (p : Vector Bit 67) : Option (Vector Digit 8) := do
  let d0 ← lookupCode ltab (slice p 3 7)
  let d1 ← lookupCode ltab (slice p 10 7)
  let d2 ← lookupCode ltab (slice p 17 7)
  let d3 ← lookupCode ltab (slice p 24 7)
  let d4 ← lookupCode rtab (slice p 36 7)
  let d5 ← lookupCode rtab (slice p 43 7)
  let d6 ← lookupCode rtab (slice p 50 7)
  let d7 ← lookupCode rtab (slice p 57 7)
  return #v[d0, d1, d2, d3, d4, d5, d6, d7]

/-- `dec67` (R94): length, then guards, then groups. -/
def dec67 (len : Nat) (p : Vector Bit 67) : Decoded :=
  if len ≠ 67 then .structureError
  else if ¬ guardsOK p then .structureError
  else
    match decodeGroups p with
    | some d => .ok d
    | none => .unknownSymbolError

/-! ### Commands -/

/-- `CHK` (R96). -/
def execChk (s : State) : Host.Outcome State Fault Refusal :=
  if wellFormedPrefix s.idlen s.idbuf then
    .next ((s.setCkd (checksum7 (digitVal s.idbuf[0]) (digitVal s.idbuf[1]) (digitVal s.idbuf[2])
      (digitVal s.idbuf[3]) (digitVal s.idbuf[4]) (digitVal s.idbuf[5])
      (digitVal s.idbuf[6]))).complete .ok)
  else .next (s.complete .identifierFormatError)

/-- `VAL` (R97): form before checksum; `VALID` is written on every outcome. -/
def execVal (s : State) : Host.Outcome State Fault Refusal :=
  if ¬ wellFormedId s.idlen s.idbuf then .next ((s.setValid 0).complete .identifierFormatError)
  else if ¬ cksumOK (digits s.idbuf) then .next ((s.setValid 0).complete .checksumError)
  else .next ((s.setValid 1).complete .ok)

/-- `ENC` (R98). -/
def execEnc (s : State) : Host.Outcome State Fault Refusal :=
  if ¬ wellFormedId s.idlen s.idbuf then .next (s.complete .identifierFormatError)
  else .next ((s.setPattern (enc67 (digits s.idbuf))).complete .ok)

/-- `DEC` (R99). -/
def execDec (s : State) : Host.Outcome State Fault Refusal :=
  match dec67 s.patlen.toNat s.pat with
  | .structureError => .next (s.complete .structureError)
  | .unknownSymbolError => .next (s.complete .unknownSymbolError)
  | .ok d => .next ((s.setIdentifier d).complete .ok)

end Sys2Proof.Machine
end

