-- ==== Sys2Proof/Machine/Sampler.lean ====
section
/-! DEFINITION. The Raster Sampler (41_sampler.md): its functions, over a pixel function, and the
commands `SMP`, `EXT`. -/

namespace Sys2Proof.Machine

/-- The number of black pixels in the run of `mw` pixels of `row` that starts at `col` (R120). -/
def blackCount (px : Nat → Nat → Bit) (row col mw : Nat) : Nat :=
  (List.range mw).countP fun i => decide (px row (col + i) = 1)

/-- `sample` (R120): 1 iff strictly more than `mw div 2` pixels of the run are black. -/
def sample (px : Nat → Nat → Bit) (row col mw : Nat) : Bit :=
  if blackCount px row col mw > mw / 2 then 1 else 0

/-- `extract` (R121): 67 adjacent samples. -/
def extract (px : Nat → Nat → Bit) (row col mw : Nat) : Vector Bit 67 :=
  Vector.ofFn fun k : Fin 67 => sample px row (col + k.val * mw) mw

/-- `SMP` (R122). -/
def execSmp (s : State) : Host.Outcome State Fault Refusal :=
  if s.rangeBad 1 then .next (s.complete .rangeError)
  else .next ((s.setBit (sample s.pixel s.row.toNat s.col.toNat s.mw.toNat)).complete .ok)

/-- `EXT` (R123). -/
def execExt (s : State) : Host.Outcome State Fault Refusal :=
  if s.rangeBad 67 then .next (s.complete .rangeError)
  else .next ((s.setPattern (extract s.pixel s.row.toNat s.col.toNat s.mw.toNat)).complete .ok)

end Sys2Proof.Machine
end

