-- ==== Sys2Proof/Machine/Locator.lean ====
section
/-! DEFINITION. The Locator (42_locator.md): candidates and their order, the candidate test, the search,
and the command `LOC`. -/

namespace Sys2Proof.Machine

/-- A candidate `(mw, row, col)` (R135). -/
structure Candidate where
  mw : Nat
  row : Nat
  col : Nat
  deriving DecidableEq, Repr

/-- All candidates of a `W` by `H` raster, by module width, then row, then column, each ascending (R135). -/
def candidates (W H : Nat) : List Candidate :=
  (List.range (W / 67)).flatMap fun i =>
    (List.range H).flatMap fun row =>
      (List.range (W - 67 * (i + 1) + 1)).map fun col => ⟨i + 1, row, col⟩

/-- The candidate test (R136): `some d` for `Match(d)`, `none` for `NoMatch`. -/
def candidateTest (px : Nat → Nat → Bit) (c : Candidate) : Option (Vector Digit 8) :=
  match dec67 67 (extract px c.row c.col c.mw) with
  | .structureError => none
  | .unknownSymbolError => none
  | .ok d => if cksumOK d then some d else none

/-- `locate` (R137): the first candidate, in the order of R135, whose test is a match. -/
def locate (px : Nat → Nat → Bit) (W H : Nat) : Option (Vector Digit 8 × Candidate) :=
  (candidates W H).findSome? fun c => (candidateTest px c).map fun d => (d, c)

/-- `LOC` (R138). -/
def execLoc (s : State) : Host.Outcome State Fault Refusal :=
  if ¬ s.geomOK then .next (s.complete .rangeError)
  else
    match locate s.pixel s.w.toNat s.h.toNat with
    | some (d, c) => .next (((s.setIdentifier d).setMatch c.mw c.row c.col).complete .ok)
    | none => .next (s.complete .notFoundError)

end Sys2Proof.Machine
end

