-- ==== Sys2Proof/Machine/Dispatch.lean ====
section
/-! DEFINITION. One arm per command of Instr. -/

namespace Sys2Proof.Machine

def exec (i : Instr) (s : State) : Host.Outcome State Fault Refusal :=
  match i with
  | .chk => Sys2Proof.Machine.execChk s
  | .val => Sys2Proof.Machine.execVal s
  | .enc => Sys2Proof.Machine.execEnc s
  | .dec => Sys2Proof.Machine.execDec s
  | .smp => Sys2Proof.Machine.execSmp s
  | .ext => Sys2Proof.Machine.execExt s
  | .loc => Sys2Proof.Machine.execLoc s

end Sys2Proof.Machine
end

