-- ==== Sys2Proof/Machine/HostPort.lean ====
section
/-! DEFINITION. What one host event does (R23, R38 to R40, R175). -/

namespace Sys2Proof.Machine

/-- The value of a register as the host reads it (R38); `CMD` reads 0 (R39). -/
def State.readReg (s : State) : Reg → Nat
  | .cmd => 0
  | .status => s.status.word.toNat
  | .ckd => s.ckd.toNat
  | .idlen => s.idlen.toNat
  | .patlen => s.patlen.toNat
  | .w => s.w.toNat
  | .h => s.h.toNat
  | .row => s.row.toNat
  | .col => s.col.toNat
  | .mw => s.mw.toNat
  | .lmw => s.lmw.toNat
  | .lrow => s.lrow.toNat
  | .lcol => s.lcol.toNat
  | .idbuf i => s.idbuf[i].toNat
  | .pat k => s.pat[k].toNat

/-- The state after the host stores a value that fits into a register other than `CMD` (R38); a read-only
register keeps its value (R39). -/
def State.writeReg (s : State) (v : Nat) : Reg → State
  | .cmd => s
  | .status => s
  | .ckd => s
  | .idlen => { s with idlen := BitVec.ofNat 8 v }
  | .patlen => { s with patlen := BitVec.ofNat 8 v }
  | .w => { s with w := BitVec.ofNat 16 v }
  | .h => { s with h := BitVec.ofNat 16 v }
  | .row => { s with row := BitVec.ofNat 16 v }
  | .col => { s with col := BitVec.ofNat 16 v }
  | .mw => { s with mw := BitVec.ofNat 16 v }
  | .lmw => s
  | .lrow => s
  | .lcol => s
  | .idbuf i => { s with idbuf := s.idbuf.set i (BitVec.ofNat 8 v) }
  | .pat k => { s with pat := s.pat.set k (BitVec.ofNat 1 v) }

/-- The command the word `c` encodes, executed as one atomic transition (R23); a reserved word is
`IllegalCommand` (R73). -/
def runCommand (c : Byte) (s : State) : Host.Outcome State Fault Refusal :=
  match decode c with
  | .ok i => exec i s
  | .error _ => .next (s.complete .illegalCommand)

/-- `HostRead(r)` (R38, R40). -/
def hostRead (r : Nat) (s : State) : Host.Outcome State Fault Refusal :=
  match regOf r with
  | none => .refused (.unmappedRegister r)
  | some reg => .next (s.giveHost (s.readReg reg))

/-- `HostWrite(r, v)` (R23, R38 to R40). -/
def hostWrite (r v : Nat) (s : State) : Host.Outcome State Fault Refusal :=
  match regOf r with
  | none => .refused (.unmappedRegister r)
  | some reg =>
    if 2 ^ reg.width ≤ v then .refused (.valueTooWide r v)
    else if reg = .cmd then runCommand (BitVec.ofNat 8 v) s
    else .next (s.writeReg v reg)

/-- `HostReadRas(a)` (R38, R40). -/
def hostReadRas (a : Nat) (s : State) : Host.Outcome State Fault Refusal :=
  if a < s.rasterCap then .next (s.giveHost (s.memRead a).toNat)
  else .refused (.cellOutOfCapacity a)

/-- `HostWriteRas(a, b)` (R38, R40). -/
def hostWriteRas (a : Nat) (b : Bit) (s : State) : Host.Outcome State Fault Refusal :=
  if a < s.rasterCap then .next (s.memWrite a b)
  else .refused (.cellOutOfCapacity a)

/-- One event from outside. -/
def perform (e : HostEvent) (s : State) : Host.Outcome State Fault Refusal :=
  match e with
  | .read r => hostRead r s
  | .write r v => hostWrite r v s
  | .readRas a => hostReadRas a s
  | .writeRas a b => hostWriteRas a b s
  | .reset => .next s.resetUnit

/-- The next event taken from the host's list and performed. With nothing pending the unit does
nothing (R20; log entry 4). -/
def nextEvent (s : State) : Host.Outcome State Fault Refusal :=
  match s.pending with
  | [] => .next s
  | e :: rest => perform e { s with pending := rest }

/-- The host issues the command word `w` next, before what it has pending: a write of `CMD` (R23; log
entry 6). -/
def issueNext (s : State) (w : Nat) : State :=
  { s with pending := .write (Reg.number .cmd) w :: s.pending }

end Sys2Proof.Machine
end

