-- ==== Sys2Proof/Machine/Step.lean ====
section
/-! DEFINITION. One step of the machine, and how a command word is placed for the next step. -/

namespace Sys2Proof.Machine

/-- One step: one host access, one whole command, or one reset event (R20, R60, R175). -/
def step (s : State) : Host.Outcome State Fault Refusal := nextEvent s

/-- The state in which the very next step executes the command word `w` of `nbits` bits: the host's next
event is the write of `w` to `CMD` (R23; log entry 6). -/
def State.withFetchWord (s : State) (nbits w : Nat) : State := issueNext s (w % 2 ^ nbits)

end Sys2Proof.Machine
end

