-- ==== Sys2Proof/Laws/PerInstr.lean ====
section
/-! SUPPORT. Statements about every command as syntax, one lemma per constructor. -/

namespace Sys2Proof.Laws.Encoding

/-- A command is well formed, its word has four zero bits above its opcode (R70), and decoding that word
gives the command back (R71). -/
def Statement (i : Instr) : Prop :=
  i.wellFormed = true ∧ zeroField (encode i) = 0 ∧ opField (encode i) = opcode i ∧
    decode (encode i) = .ok i

theorem chk : Statement .chk := by unfold Statement; decide
theorem val : Statement .val := by unfold Statement; decide
theorem enc : Statement .enc := by unfold Statement; decide
theorem dec : Statement .dec := by unfold Statement; decide
theorem smp : Statement .smp := by unfold Statement; decide
theorem ext : Statement .ext := by unfold Statement; decide
theorem loc : Statement .loc := by unfold Statement; decide

end Sys2Proof.Laws.Encoding
end

