-- ==== Sys2Proof/Machine/HostProgram.lean ====
section
/-! DEFINITION. The host's side: statements of a command program and what each expands to (R75, R76),
raster loading (R66) and the reference renderer (R67). None of it is part of the unit. -/

namespace Sys2Proof.Machine

/-- A statement of a command program: the primitive ones of R75, then the pseudo-statements of R76. -/
inductive Stmt where
  /-- `chk`, `val`, `enc`, `dec`, `smp`, `ext`, `loc` -/
  | command (i : Instr)
  /-- `cmd n` -/
  | cmd (n : Nat)
  /-- `wr REG, n` -/
  | wr (r : Reg) (n : Nat)
  /-- `rd REG` -/
  | rd (r : Reg)
  /-- `wrr a, b` -/
  | wrr (a : Nat) (b : Bit)
  /-- `rdr a` -/
  | rdr (a : Nat)
  /-- `wrid "s"`, by the 8-bit codes of the characters of `s` -/
  | wrid (s : List Byte)
  /-- `wrpat "b"` -/
  | wrpat (b : List Bit)
  /-- `ras w, h, "r0", "r1", ...` -/
  | ras (w h : Nat) (rows : List (List Bit))
  /-- `smp r, c, m` -/
  | smpAt (r c m : Nat)
  /-- `ext r, c, m` -/
  | extAt (r c m : Nat)
  deriving DecidableEq, Repr

/-- `wr REG, n` as a host access (R75). -/
def wrEvent (r : Reg) (n : Nat) : HostEvent := .write r.number n

/-- A command as a host access (R75). -/
def commandEvent (i : Instr) : HostEvent := wrEvent .cmd (encode i).toNat

/-- Writes of `values` to the registers `number`, `number + 1`, ... in that order (R76). -/
def writesFrom : Nat → List Nat → List HostEvent
  | _, [] => []
  | number, v :: rest => .write number v :: writesFrom (number + 1) rest

/-- Writes of `bits` to the cells `a`, `a + 1`, ... in that order (R66, R76). -/
def cellsFrom : Nat → List Bit → List HostEvent
  | _, [] => []
  | a, b :: rest => .writeRas a b :: cellsFrom (a + 1) rest

/-- The cell writes of the rows of a raster of width `w`, row `i` from cell `i * w` (R76). -/
def rowsFrom (w : Nat) : Nat → List (List Bit) → List HostEvent
  | _, [] => []
  | i, r :: rest => cellsFrom (i * w) r ++ rowsFrom w (i + 1) rest

/-- The host accesses of a statement, in order (R75, R76). -/
def Stmt.expand : Stmt → List HostEvent
  | .command i => [commandEvent i]
  | .cmd n => [wrEvent .cmd n]
  | .wr r n => [wrEvent r n]
  | .rd r => [.read r.number]
  | .wrr a b => [.writeRas a b]
  | .rdr a => [.readRas a]
  | .wrid s => writesFrom 0x10 ((s.take 8).map BitVec.toNat) ++ [wrEvent .idlen s.length]
  | .wrpat b => writesFrom 0x40 ((b.take 67).map BitVec.toNat) ++ [wrEvent .patlen b.length]
  | .ras w h rows => [wrEvent .w w, wrEvent .h h] ++ rowsFrom w 0 rows
  | .smpAt r c m => [wrEvent .row r, wrEvent .col c, wrEvent .mw m, commandEvent .smp]
  | .extAt r c m => [wrEvent .row r, wrEvent .col c, wrEvent .mw m, commandEvent .ext]

/-- A command program as the host's list of accesses: its statements from first to last (R34, R75). -/
def programEvents (p : List Stmt) : List HostEvent := p.flatMap Stmt.expand

/-- The host is given a list of events to perform after those it has pending. -/
def State.withProgram (s : State) (events : List HostEvent) : State :=
  { s with pending := s.pending ++ events }

/-- Handing a `width` by `height` raster to the unit: `W`, `H`, then the pixel values in row-major order
(R66). -/
def loadRaster (width height : Nat) (pixels : List Bit) : List HostEvent :=
  [wrEvent .w width, wrEvent .h height] ++ cellsFrom 0 pixels

/-- The width and height of `render(s, w, m, h, VM)` (R67). -/
def renderWidth (w m : Nat) : Nat := 2 * m + 67 * w
def renderHeight (h vm : Nat) : Nat := h + 2 * vm

/-- Pixel (`row`, `col`) of `render(s, w, m, h, VM)` for the pattern `p = enc67(s)` (R67). -/
def renderPixel (p : Vector Bit 67) (w m h vm row col : Nat) : Bit :=
  if row < vm ∨ vm + h ≤ row then 0
  else if col < m ∨ m + 67 * w ≤ col then 0
  else if k : (col - m) / w < 67 then p[(col - m) / w] else 0

/-- The pixels of a raster in row-major order (R52, R66). -/
def rasterPixels (width height : Nat) (px : Nat → Nat → Bit) : List Bit :=
  (List.range height).flatMap fun row => (List.range width).map fun col => px row col

/-- Loading `render(s, w, m, h, VM)` (R66, R67); `VM` is 0 where it is not given. -/
def loadRendered (d : Vector Digit 8) (w m h : Nat) (vm : Nat := 0) : List HostEvent :=
  loadRaster (renderWidth w m) (renderHeight h vm)
    (rasterPixels (renderWidth w m) (renderHeight h vm) (renderPixel (enc67 d) w m h vm))

end Sys2Proof.Machine
end

