-- ==== Sys2Proof/Safety.lean ====
section
/-! DEFINITION. What claims are stated in terms of: the invariant of the unit, the notion of a run, and
the outcomes each command may have. -/

namespace Sys2Proof

open Machine

/-- The invariant of the unit, which every step keeps. -/
structure UnitInvariant (s : State) : Prop where
  /-- Memory is in canonical form. -/
  rasCanonical : Memory.wf s.ras
  /-- Only cells that exist are listed (R50). -/
  rasWithin : Memory.within s.rasterCap s.ras
  /-- `RASTER_CAP >= 1` (R6). -/
  capPositive : 1 ≤ s.rasterCap
  /-- Values 10 to 15 of `CKD` never occur (R25). -/
  ckdDigit : s.ckd.toNat ≤ 9
  /-- A fault code is never left without `FLT` (R152). -/
  faultFlagged : s.status.code.isFault = true → s.status.flt = 1
  /-- The match registers hold a candidate of some raster with `W, H < 2^CW` (R36). -/
  matchCol : 67 * s.lmw.toNat + s.lcol.toNat < 2 ^ Config.CW
  matchRow : s.lrow.toNat < 2 ^ Config.CW - 1

/-- No fault has been recorded since the last reset: the premise a claim about a command program normally
takes (R152). -/
def NoFaultRecorded (s : State) : Prop := s.status.flt = 0

/-- The host's pending events hold no reset event. -/
def NoResetPending (s : State) : Prop := HostEvent.reset ∉ s.pending

/-- `n` steps of the machine from a state. -/
abbrev runSteps (n : Nat) (s : State) : Host.Outcome State Fault Refusal := Sys2Proof.core.run n s

/-- The outcome codes a command can end with (R151). -/
def possibleOutcomes : Instr → List OutcomeCode
  | .chk => [.ok, .identifierFormatError]
  | .val => [.ok, .identifierFormatError, .checksumError]
  | .enc => [.ok, .identifierFormatError]
  | .dec => [.ok, .structureError, .unknownSymbolError]
  | .smp => [.ok, .rangeError]
  | .ext => [.ok, .rangeError]
  | .loc => [.ok, .notFoundError, .rangeError]

/-- `(mw, row, col)` is a candidate of a `W` by `H` raster (R135). -/
def IsCandidate (W H : Nat) (c : Candidate) : Prop :=
  1 ≤ c.mw ∧ 67 * c.mw ≤ W ∧ c.row < H ∧ c.col + 67 * c.mw ≤ W

/-- The order of the candidates: by `mw`, then `row`, then `col` (R135). -/
def Precedes (a b : Candidate) : Prop :=
  a.mw < b.mw ∨ a.mw = b.mw ∧ (a.row < b.row ∨ a.row = b.row ∧ a.col < b.col)

/-- Candidate `c` of a raster matches with the digits `d` (R136). -/
def Matches (px : Nat → Nat → Bit) (c : Candidate) (d : Vector Digit 8) : Prop :=
  dec67 67 (extract px c.row c.col c.mw) = .ok d ∧ cksumOK d

/-- The guards of R79, element by element. -/
def GuardsMatch (p : Vector Bit 67) : Prop :=
  p[0] = 1 ∧ p[1] = 0 ∧ p[2] = 1 ∧
  p[31] = 0 ∧ p[32] = 1 ∧ p[33] = 0 ∧ p[34] = 1 ∧ p[35] = 0 ∧
  p[64] = 1 ∧ p[65] = 0 ∧ p[66] = 1

/-- Left group `g`, offsets `3 + 7*g` to `9 + 7*g`, holds the given code (R79). -/
def LeftGroupIs (p : Vector Bit 67) (g : Fin 4) (code : Code) : Prop :=
  ∀ j : Fin 7, p[3 + 7 * g.val + j.val] = code[j]

/-- Right group `g`, offsets `36 + 7*g` to `42 + 7*g`, holds the given code (R79). -/
def RightGroupIs (p : Vector Bit 67) (g : Fin 4) (code : Code) : Prop :=
  ∀ j : Fin 7, p[36 + 7 * g.val + j.val] = code[j]

/-- The weighted sum of R92 over the first seven characters of an identifier. -/
def charSum (buf : Vector Byte 8) : Nat :=
  3 * (buf[0].toNat - 0x30) + (buf[1].toNat - 0x30) + 3 * (buf[2].toNat - 0x30) + (buf[3].toNat - 0x30)
    + 3 * (buf[4].toNat - 0x30) + (buf[5].toNat - 0x30) + 3 * (buf[6].toNat - 0x30)

/-- The eight characters of eight digit values (R11, R26). -/
def charsOf (d : Vector Digit 8) : Vector Byte 8 :=
  Vector.ofFn fun i : Fin 8 => BitVec.ofNat 8 (0x30 + (d[i]).val)

/-- Strictly more than `mw div 2` of the `mw` pixels of the run are black (R120). -/
def MajorityBlack (px : Nat → Nat → Bit) (row col mw : Nat) : Prop :=
  mw / 2 < ((Finset.range mw).filter fun i => px row (col + i) = 1).card

/-- The raster presented to the unit is `render(d, w, m, h, VM)` (R66, R67). -/
def ShowsRendered (s : State) (d : Vector Digit 8) (w m h vm : Nat) : Prop :=
  s.w.toNat = renderWidth w m ∧ s.h.toNat = renderHeight h vm ∧
    ∀ row col, row < s.h.toNat → col < s.w.toNat →
      s.pixel row col = renderPixel (enc67 d) w m h vm row col

end Sys2Proof
end

