-- ==== Sys2Proof/Certificates/Slice0/Obligations.lean ====
section
/-! DEFINITION. The statements for the provers. Each docstring names the rules it formalises; where a
clause is the model's own, it names the log entry. -/

open Sys2Proof Sys2Proof.Machine

/-! ### Command words and steps -/

/-- R70, R71: every command's word decodes to the command. -/
def Obligations.CommandWordsDecodeBack : Prop := ∀ i : Instr, Sys2Proof.Laws.Encoding.Statement i

/-- R71: the opcode map, word by word, and which words select a command. -/
def Obligations.OpcodeMapSelectsCommands : Prop :=
  (∀ c : Byte, (∃ i, decode c = .ok i) ↔ c.toNat / 16 = 0 ∧ 1 ≤ c.toNat % 16 ∧ c.toNat % 16 ≤ 7) ∧
  decode 0x01 = .ok .chk ∧ decode 0x02 = .ok .val ∧ decode 0x03 = .ok .enc ∧ decode 0x04 = .ok .dec ∧
  decode 0x05 = .ok .smp ∧ decode 0x06 = .ok .ext ∧ decode 0x07 = .ok .loc

/-- R23, R60: a host write of a command's word to `CMD` executes that command as one step. The host's
list of events is the model's own (log entries 4 and 6). -/
def Obligations.StepRunsDecodedCommand : Prop :=
  (∀ (s : State) (rest : List HostEvent) (v : Nat) (i : Instr),
    s.pending = .write 0x00 v :: rest → v < 256 → decode (BitVec.ofNat 8 v) = .ok i →
      step s = exec i { s with pending := rest }) ∧
  (∀ (s : State) (i : Instr), step (s.withFetchWord 8 (encode i).toNat) = exec i s)

/-- R73: a reserved word written to `CMD` changes `CODE` and `FLT` and nothing else. -/
def Obligations.ReservedWordIsIllegalCommand : Prop :=
  ∀ (s : State) (rest : List HostEvent) (v : Nat),
    s.pending = .write 0x00 v :: rest → v < 256 → v = 0 ∨ 8 ≤ v →
      step s = .next { s with
        pending := rest, status := { s.status with code := .illegalCommand, flt := 1 } }

/-- R20: with nothing to perform the unit does nothing. That such a step answers a next state is the
model's choice (log entry 4). -/
def Obligations.IdleUnitStays : Prop := ∀ s : State, s.pending = [] → step s = .next s

/-! ### The codec -/

/-- R92: the formula of `checksum7`, and that the check digit is the one digit that brings the weighted sum
to a multiple of 10. -/
def Obligations.ChecksumBringsSumToMultipleOfTen : Prop :=
  ∀ d0 d1 d2 d3 d4 d5 d6 : Digit,
    (checksum7 d0 d1 d2 d3 d4 d5 d6).val =
      (10 - (3 * d0.val + 1 * d1.val + 3 * d2.val + 1 * d3.val + 3 * d4.val + 1 * d5.val
        + 3 * d6.val) % 10) % 10 ∧
    3 * d0.val + 1 * d1.val + 3 * d2.val + 1 * d3.val + 3 * d4.val + 1 * d5.val + 3 * d6.val ≤ 135 ∧
    ∀ c : Digit, c = checksum7 d0 d1 d2 d3 d4 d5 d6 ↔
      (3 * d0.val + 1 * d1.val + 3 * d2.val + 1 * d3.val + 3 * d4.val + 1 * d5.val + 3 * d6.val
        + c.val) % 10 = 0

/-- R96: what `CHK` does on every state, as a whole next state. -/
def Obligations.ChkWritesTheCheckDigit : Prop :=
  ∀ s : State,
    (wellFormedPrefix s.idlen s.idbuf →
      exec .chk s = .next { s with
        ckd := BitVec.ofNat 4 ((10 - charSum s.idbuf % 10) % 10),
        status := { s.status with code := .ok } }) ∧
    (¬ wellFormedPrefix s.idlen s.idbuf →
      exec .chk s = .next { s with status := { s.status with code := .identifierFormatError } })

/-- R101: `CHK` depends on `IDLEN` and `IDBUF[0..6]` only. -/
def Obligations.ChkDependsOnThePrefixOnly : Prop :=
  ∀ s s' t t' : State, s.idlen = s'.idlen →
    (∀ i : Fin 7, s.idbuf[i.val]'(by omega) = s'.idbuf[i.val]'(by omega)) →
    exec .chk s = .next t → exec .chk s' = .next t' →
      t.status.code = t'.status.code ∧ (t.status.code = .ok → t.ckd = t'.ckd)

/-- R97, R95: `VAL` judges form, then checksum, and writes `VALID` and `CODE` on every outcome. -/
def Obligations.ValJudgesFormThenChecksum : Prop :=
  ∀ s : State,
    (¬ wellFormedId s.idlen s.idbuf →
      exec .val s = .next { s with
        status := { s.status with valid := 0, code := .identifierFormatError } }) ∧
    (wellFormedId s.idlen s.idbuf → (charSum s.idbuf + (s.idbuf[7].toNat - 0x30)) % 10 ≠ 0 →
      exec .val s = .next { s with status := { s.status with valid := 0, code := .checksumError } }) ∧
    (wellFormedId s.idlen s.idbuf → (charSum s.idbuf + (s.idbuf[7].toNat - 0x30)) % 10 = 0 →
      exec .val s = .next { s with status := { s.status with valid := 1, code := .ok } })

/-- R178: the check digit that `CHK` leaves, appended by the host, makes an identifier `VAL` accepts. -/
def Obligations.CheckDigitCompletesAnIdentifier : Prop :=
  ∀ s t : State, wellFormedPrefix s.idlen s.idbuf → exec .chk s = .next t →
    ∃ u, exec .val ((t.writeReg (0x30 + t.ckd.toNat) (.idbuf 7)).writeReg 8 .idlen) = .next u ∧
      u.status.code = .ok ∧ u.status.valid = 1

/-- R98: what `ENC` does on every state; the checksum is not looked at. -/
def Obligations.EncWritesTheEncodedPattern : Prop :=
  ∀ s : State,
    (wellFormedId s.idlen s.idbuf →
      exec .enc s = .next { s with
        pat := enc67 (digits s.idbuf), patlen := 67, status := { s.status with code := .ok } }) ∧
    (¬ wellFormedId s.idlen s.idbuf →
      exec .enc s = .next { s with status := { s.status with code := .identifierFormatError } })

/-- R79, R93: the layout of an encoded pattern, offset by offset. -/
def Obligations.EncodedPatternLayout : Prop :=
  ∀ d : Vector Digit 8, GuardsMatch (enc67 d) ∧
    LeftGroupIs (enc67 d) 0 ltab[d[0]] ∧ LeftGroupIs (enc67 d) 1 ltab[d[1]] ∧
    LeftGroupIs (enc67 d) 2 ltab[d[2]] ∧ LeftGroupIs (enc67 d) 3 ltab[d[3]] ∧
    RightGroupIs (enc67 d) 0 rtab[d[4]] ∧ RightGroupIs (enc67 d) 1 rtab[d[5]] ∧
    RightGroupIs (enc67 d) 2 rtab[d[6]] ∧ RightGroupIs (enc67 d) 3 rtab[d[7]]

/-- R94, R99, R102: `DEC` judges length and guards before groups, takes `LTAB` on the left and `RTAB` on the
right, and writes the digits' characters; the checksum is not looked at. -/
def Obligations.DecJudgesStructureThenGroups : Prop :=
  ∀ s : State,
    (s.patlen.toNat ≠ 67 ∨ ¬ GuardsMatch s.pat →
      exec .dec s = .next { s with status := { s.status with code := .structureError } }) ∧
    (s.patlen.toNat = 67 → GuardsMatch s.pat →
      (∃ g : Fin 4, (∀ d : Digit, ¬ LeftGroupIs s.pat g ltab[d]) ∨
        ∀ d : Digit, ¬ RightGroupIs s.pat g rtab[d]) →
      exec .dec s = .next { s with status := { s.status with code := .unknownSymbolError } }) ∧
    (∀ d : Vector Digit 8, s.patlen.toNat = 67 → GuardsMatch s.pat →
      LeftGroupIs s.pat 0 ltab[d[0]] → LeftGroupIs s.pat 1 ltab[d[1]] →
      LeftGroupIs s.pat 2 ltab[d[2]] → LeftGroupIs s.pat 3 ltab[d[3]] →
      RightGroupIs s.pat 0 rtab[d[4]] → RightGroupIs s.pat 1 rtab[d[5]] →
      RightGroupIs s.pat 2 rtab[d[6]] → RightGroupIs s.pat 3 rtab[d[7]] →
      exec .dec s = .next { s with
        idbuf := charsOf d, idlen := 8, status := { s.status with code := .ok } })

/-- R83: right codes on the left, or left codes on the right, are rejected as unknown symbols. -/
def Obligations.SwappedTableCodesAreRejected : Prop :=
  ∀ (s : State) (g : Fin 4) (d : Digit), s.patlen.toNat = 67 → GuardsMatch s.pat →
    LeftGroupIs s.pat g rtab[d] ∨ RightGroupIs s.pat g ltab[d] →
    exec .dec s = .next { s with status := { s.status with code := .unknownSymbolError } }

/-- R100: the round trip, for every well-formed identifier, whatever its checksum. -/
def Obligations.EncThenDecRestoresTheIdentifier : Prop :=
  (∀ d : Vector Digit 8, dec67 67 (enc67 d) = .ok d) ∧
  ∀ s : State, wellFormedId s.idlen s.idbuf →
    ∃ t u, exec .enc s = .next t ∧ exec .dec t = .next u ∧
      u.status.code = .ok ∧ u.idbuf = s.idbuf ∧ u.idlen = s.idlen

/-- R103: after a successful `DEC`, `VAL` can end only in `OK` or `ChecksumError`. -/
def Obligations.ValAfterDecJudgesOnlyTheChecksum : Prop :=
  ∀ s t : State, exec .dec s = .next t → t.status.code = .ok →
    ∃ u, exec .val t = .next u ∧ (u.status.code = .ok ∨ u.status.code = .checksumError)

/-- R82: the constraints on the two code tables, and the facts about their values that R82 names. -/
def Obligations.CodeTablesMeetTheirConstraints : Prop :=
  (∀ (d : Digit) (j : Fin 7), (rtab[d][j]).toNat = 1 - (ltab[d][j]).toNat) ∧
  (∀ d e : Digit, ltab[d] ≠ rtab[e]) ∧
  (∀ d e : Digit, ltab[d] = ltab[e] → d = e) ∧
  (∀ d e : Digit, rtab[d] = rtab[e] → d = e) ∧
  (∀ d : Digit, ltab[d][0] = 0 ∧ ltab[d][6] = 1 ∧ ltab[d].toList.count 1 % 2 = 1) ∧
  (∀ d : Digit, rtab[d][0] = 1 ∧ rtab[d][6] = 0 ∧ rtab[d].toList.count 1 % 2 = 0) ∧
  ((List.range 128).countP fun n => decide (∀ d : Digit,
    ltab[d] ≠ (Vector.ofFn fun j : Fin 7 => BitVec.ofNat 1 (n / 2 ^ (6 - j.val))) ∧
    rtab[d] ≠ (Vector.ofFn fun j : Fin 7 => BitVec.ofNat 1 (n / 2 ^ (6 - j.val))))) = 108 ∧
  (∀ d e : Digit, d ≠ e →
    2 ≤ (List.finRange 7).countP fun j => decide (ltab[d][j] ≠ ltab[e][j])) ∧
  (∃ d e : Digit, (List.finRange 7).countP (fun j => decide (ltab[d][j] ≠ ltab[e][j])) = 2)

/-! ### The sampler -/

/-- R120, R122: `SMP` on every state. -/
def Obligations.SmpWritesTheMajorityOfItsRun : Prop :=
  ∀ s : State,
    (1 ≤ s.mw.toNat → s.row.toNat < s.h.toNat → s.col.toNat + s.mw.toNat ≤ s.w.toNat →
      s.w.toNat * s.h.toNat ≤ s.rasterCap →
      ∃ b : Bit, exec .smp s = .next { s with status := { s.status with code := .ok, bit := b } } ∧
        (b = 1 ↔ MajorityBlack (fun r c => s.memRead (r * s.w.toNat + c))
          s.row.toNat s.col.toNat s.mw.toNat)) ∧
    (s.mw.toNat = 0 ∨ s.h.toNat ≤ s.row.toNat ∨ s.w.toNat < s.col.toNat + s.mw.toNat ∨
      s.rasterCap < s.w.toNat * s.h.toNat →
      exec .smp s = .next { s with status := { s.status with code := .rangeError, flt := 1 } })

/-- R121, R123: `EXT` on every state. -/
def Obligations.ExtTakesSixtySevenAdjacentSamples : Prop :=
  ∀ s : State,
    (1 ≤ s.mw.toNat → s.row.toNat < s.h.toNat → s.col.toNat + 67 * s.mw.toNat ≤ s.w.toNat →
      s.w.toNat * s.h.toNat ≤ s.rasterCap →
      ∃ p : Vector Bit 67,
        exec .ext s = .next { s with
          pat := p, patlen := 67, status := { s.status with code := .ok } } ∧
        ∀ k : Fin 67, p[k] = 1 ↔ MajorityBlack (fun r c => s.memRead (r * s.w.toNat + c))
          s.row.toNat (s.col.toNat + k.val * s.mw.toNat) s.mw.toNat) ∧
    (s.mw.toNat = 0 ∨ s.h.toNat ≤ s.row.toNat ∨ s.w.toNat < s.col.toNat + 67 * s.mw.toNat ∨
      s.rasterCap < s.w.toNat * s.h.toNat →
      exec .ext s = .next { s with status := { s.status with code := .rangeError, flt := 1 } })

/-- R124: the strict majority threshold, and the source's two examples. -/
def Obligations.SampleIsStrictMajority : Prop :=
  (∀ (px : Nat → Nat → Bit) (row col w : Nat), sample px row col w = 1 ↔ MajorityBlack px row col w) ∧
  (∀ px : Nat → Nat → Bit, px 0 0 = 1 → px 0 1 = 1 → px 0 2 = 0 → sample px 0 0 3 = 1) ∧
  (∀ px : Nat → Nat → Bit, px 0 0 = 1 → px 0 1 = 1 → px 0 2 = 0 → px 0 3 = 0 → sample px 0 0 4 = 0)

/-- R125: a run that holds `j` pixels of one module and then pixels of the next reads as the next, whatever
the two are, iff `j <= (w-1) div 2`. -/
def Obligations.MajorityToleratesShift : Prop :=
  ∀ w j : Nat, 1 ≤ w → j < w →
    ((∀ (a b : Bit) (px : Nat → Nat → Bit) (row col : Nat),
        (∀ i < w, px row (col + i) = if i < j then a else b) → sample px row col w = b) ↔
      j ≤ (w - 1) / 2)

/-- R125, R67: a rendered symbol is read correctly from up to `(w-1) div 2` columns left of its start. -/
def Obligations.RenderedSymbolReadsFromShiftedStart : Prop :=
  ∀ (d : Vector Digit 8) (w m h vm row e : Nat), 1 ≤ w → e ≤ (w - 1) / 2 → e ≤ m →
    vm ≤ row → row < vm + h →
    extract (renderPixel (enc67 d) w m h vm) row (m - e) w = enc67 d

/-! ### The locator -/

/-- R135: the candidates, their order and their number. -/
def Obligations.CandidatesAreEnumeratedInOrder : Prop :=
  ∀ W H : Nat,
    (∀ c : Candidate, c ∈ candidates W H ↔ IsCandidate W H c) ∧
    (candidates W H).Pairwise Precedes ∧
    (candidates W H).length = ((List.range (W / 67)).map fun i => H * (W - 67 * (i + 1) + 1)).sum ∧
    (W < 67 ∨ H = 0 → candidates W H = [])

/-- R136, R137, R138, R140: `LOC` on every state. The match it reports is the one before which, in the order
of R135, no candidate matches. -/
def Obligations.LocFindsTheFirstMatch : Prop :=
  ∀ s : State,
    (s.rasterCap < s.w.toNat * s.h.toNat →
      exec .loc s = .next { s with status := { s.status with code := .rangeError, flt := 1 } }) ∧
    (s.w.toNat * s.h.toNat ≤ s.rasterCap →
      (∀ c d, IsCandidate s.w.toNat s.h.toNat c → ¬ Matches s.pixel c d) →
      exec .loc s = .next { s with status := { s.status with code := .notFoundError } }) ∧
    (s.w.toNat * s.h.toNat ≤ s.rasterCap →
      ∀ (c : Candidate) (d : Vector Digit 8), IsCandidate s.w.toNat s.h.toNat c →
        Matches s.pixel c d →
        (∀ c' d', IsCandidate s.w.toNat s.h.toNat c' → Precedes c' c → ¬ Matches s.pixel c' d') →
        exec .loc s = .next { s with
          idbuf := charsOf d, idlen := 8, lmw := BitVec.ofNat 16 c.mw, lrow := BitVec.ofNat 16 c.row,
          lcol := BitVec.ofNat 16 c.col, status := { s.status with code := .ok } })

/-- R139: a raster narrower than 67 pixels or of no rows has no candidates, whatever `RAS` holds. -/
def Obligations.LocOnDegenerateRasterFindsNothing : Prop :=
  ∀ s : State, s.w.toNat < 67 ∨ s.h.toNat = 0 → s.w.toNat * s.h.toNat ≤ s.rasterCap →
    exec .loc s = .next { s with status := { s.status with code := .notFoundError } }

/-- R138: after `OK` the identifier is valid, and an `EXT` at the reported position followed by a `DEC` gives
it again. -/
def Obligations.LocResultIsValidAndReproducible : Prop :=
  ∀ s t : State, exec .loc s = .next t → t.status.code = .ok →
    validId t.idlen t.idbuf ∧
    ∃ u v, exec .ext (((t.writeReg t.lmw.toNat .mw).writeReg t.lrow.toNat .row).writeReg
        t.lcol.toNat .col) = .next u ∧
      exec .dec u = .next v ∧ u.status.code = .ok ∧ v.status.code = .ok ∧
      v.idbuf = t.idbuf ∧ v.idlen = t.idlen

/-- Where `LOC` finds the symbol of a rendered raster (the source's assertion R141 does not say): in the
symbol's rows, at a module width above `w div 2` and up to `w`; at `w` itself it reports the rendered
identifier, `(w-1) div 2` columns (or the whole margin) left of the symbol's start. It rests on the values of
R80 and R81, which the spec takes from general knowledge (log entry 7). -/
def Obligations.LocOnRenderedSymbol : Prop :=
  ∀ (s : State) (d : Vector Digit 8) (w m h vm : Nat), 1 ≤ w → 1 ≤ h → cksumOK d →
    ShowsRendered s d w m h vm → s.w.toNat * s.h.toNat ≤ s.rasterCap →
    ∃ t, exec .loc s = .next t ∧ t.status.code = .ok ∧ validId t.idlen t.idbuf ∧
      t.lmw.toNat ≤ w ∧ w < 2 * t.lmw.toNat ∧ vm ≤ t.lrow.toNat ∧ t.lrow.toNat < vm + h ∧
      (t.lmw.toNat = w → t.idbuf = charsOf d ∧ t.lrow.toNat = vm ∧
        t.lcol.toNat = m - min m ((w - 1) / 2))

/-- R141, the source's assertion, for every module width, margin and height: `LOC` returns the rendered
identifier. Why it holds: a pattern that decodes has 43 runs of equal elements, and so has the symbol, so
the sampled runs and the symbol's runs correspond one to one in order; a sampled run's end is at most half
a sample away from the symbol's, and the two counts of modules agree at every group's ends, so they agree
everywhere. The runs of a code are those of the values of R80 and R81, which the spec takes from general
knowledge (log entry 7). -/
def Obligations.LocReturnsTheRenderedIdentifier : Prop :=
  ∀ (s : State) (d : Vector Digit 8) (w m h vm : Nat), 1 ≤ w → 1 ≤ h → cksumOK d →
    ShowsRendered s d w m h vm → s.w.toNat * s.h.toNat ≤ s.rasterCap →
    ∃ t, exec .loc s = .next t ∧ t.status.code = .ok ∧ t.idbuf = charsOf d ∧ t.idlen = 8 ∧
      t.lrow.toNat = vm

/-- R141 at module widths 1 and 2: the whole next state. It rests on the values of R80 and R81, which the
spec takes from general knowledge (log entry 7). -/
def Obligations.LocReadsRenderedSymbolAtWidthsOneAndTwo : Prop :=
  ∀ (s : State) (d : Vector Digit 8) (w m h vm : Nat), w = 1 ∨ w = 2 → 1 ≤ h → cksumOK d →
    ShowsRendered s d w m h vm → s.w.toNat * s.h.toNat ≤ s.rasterCap →
    exec .loc s = .next { s with
      idbuf := charsOf d, idlen := 8, lmw := BitVec.ofNat 16 w, lrow := BitVec.ofNat 16 vm,
      lcol := BitVec.ofNat 16 m, status := { s.status with code := .ok } }

/-! ### Outcomes and frames -/

/-- R150, R151, R185: every command completes, with one of the outcomes R151 lists for it. -/
def Obligations.EveryCommandCompletes : Prop :=
  ∀ (i : Instr) (s : State), ∃ t, exec i s = .next t ∧ t.status.code ∈ possibleOutcomes i

/-- R154: a command that does not end with `OK`, a reserved word among them, leaves the state as it was but
for `STATUS`. -/
def Obligations.FailedCommandWritesOnlyStatus : Prop :=
  (∀ (i : Instr) (s t : State), exec i s = .next t → t.status.code ≠ .ok →
    t = { s with status :=
      { code := t.status.code
        valid := if i = .val then 0 else s.status.valid
        bit := s.status.bit
        flt := if t.status.code.isFault then 1 else s.status.flt } }) ∧
  ∀ (c : Byte) (e : DecodeError) (s : State), decode c = .error e →
    runCommand c s = .next { s with status := { s.status with code := .illegalCommand, flt := 1 } }

/-- R42, R54, R37: the frame of the commands. What no command writes; each destination is written by the
commands R42 names and by no other; every cell of `RAS` reads as before. -/
def Obligations.CommandsLeaveOtherStateAlone : Prop :=
  ∀ (i : Instr) (s t : State), exec i s = .next t →
    (∀ a, t.memRead a = s.memRead a) ∧ t.ras = s.ras ∧
    t.w = s.w ∧ t.h = s.h ∧ t.row = s.row ∧ t.col = s.col ∧ t.mw = s.mw ∧
    t.rasterCap = s.rasterCap ∧ t.resets = s.resets ∧ t.pending = s.pending ∧
    t.returned = s.returned ∧
    (i ≠ .chk → t.ckd = s.ckd) ∧
    (i ≠ .dec → i ≠ .loc → t.idbuf = s.idbuf ∧ t.idlen = s.idlen) ∧
    (i ≠ .enc → i ≠ .ext → t.pat = s.pat ∧ t.patlen = s.patlen) ∧
    (i ≠ .loc → t.lmw = s.lmw ∧ t.lrow = s.lrow ∧ t.lcol = s.lcol) ∧
    (i ≠ .val → t.status.valid = s.status.valid) ∧
    (i ≠ .smp → t.status.bit = s.status.bit)

/-- R36: every value a command writes fits its register; none is truncated. -/
def Obligations.WrittenValuesFit : Prop :=
  ∀ (i : Instr) (s t : State), exec i s = .next t →
    t.status.code.number.toNat ≤ 7 ∧
    (t.ckd = s.ckd ∨ t.ckd.toNat ≤ 9) ∧
    (t.idlen = s.idlen ∨ t.idlen = 8) ∧ (t.patlen = s.patlen ∨ t.patlen = 67) ∧
    (t.idbuf = s.idbuf ∨ ∀ j : Fin 8, 0x30 ≤ (t.idbuf[j]).toNat ∧ (t.idbuf[j]).toNat ≤ 0x39) ∧
    ((t.lmw = s.lmw ∧ t.lrow = s.lrow ∧ t.lcol = s.lcol) ∨
      (1 ≤ t.lmw.toNat ∧ t.lmw.toNat ≤ s.w.toNat / 67 ∧ t.lrow.toNat < s.h.toNat ∧
        t.lcol.toNat ≤ s.w.toNat - 67 ∧ t.lcol.toNat + 67 * t.lmw.toNat ≤ s.w.toNat))

/-- R42, R72, U12: the codec commands depend on their operand registers only. -/
def Obligations.CodecCommandsReadOnlyTheirOperands : Prop :=
  ∀ s s' t t' : State,
    (s.idlen = s'.idlen → s.idbuf = s'.idbuf → exec .val s = .next t → exec .val s' = .next t' →
      t.status.code = t'.status.code ∧ t.status.valid = t'.status.valid) ∧
    (s.idlen = s'.idlen → s.idbuf = s'.idbuf → exec .enc s = .next t → exec .enc s' = .next t' →
      t.status.code = t'.status.code ∧
        (t.status.code = .ok → t.pat = t'.pat ∧ t.patlen = t'.patlen)) ∧
    (s.patlen = s'.patlen → (s.patlen.toNat = 67 → s.pat = s'.pat) →
      exec .dec s = .next t → exec .dec s' = .next t' →
      t.status.code = t'.status.code ∧
        (t.status.code = .ok → t.idbuf = t'.idbuf ∧ t.idlen = t'.idlen))

/-- R53, R42: the raster commands depend on their operand registers and on the cells below `W * H` only, so
under their conditions no other cell is read. -/
def Obligations.RasterCommandsReadOnlyTheRaster : Prop :=
  ∀ s s' t t' : State, s.w = s'.w → s.h = s'.h → s.rasterCap = s'.rasterCap →
    (∀ a, a < s.w.toNat * s.h.toNat → s.memRead a = s'.memRead a) →
    (exec .loc s = .next t → exec .loc s' = .next t' →
      t.status.code = t'.status.code ∧ (t.status.code = .ok →
        t.idbuf = t'.idbuf ∧ t.idlen = t'.idlen ∧ t.lmw = t'.lmw ∧ t.lrow = t'.lrow ∧
          t.lcol = t'.lcol)) ∧
    (s.row = s'.row → s.col = s'.col → s.mw = s'.mw →
      (exec .smp s = .next t → exec .smp s' = .next t' →
        t.status.code = t'.status.code ∧ (t.status.code = .ok → t.status.bit = t'.status.bit)) ∧
      (exec .ext s = .next t → exec .ext s' = .next t' →
        t.status.code = t'.status.code ∧
          (t.status.code = .ok → t.pat = t'.pat ∧ t.patlen = t'.patlen)))

/-- R152: faults set `FLT`, errors and `OK` leave it, and no step but a reset event clears it. -/
def Obligations.FaultFlagIsSticky : Prop :=
  (∀ (c : Byte) (s t : State), runCommand c s = .next t →
    t.status.flt = if t.status.code = .rangeError ∨ t.status.code = .illegalCommand then 1
      else s.status.flt) ∧
  (∀ (i : Instr) (s : State), runCommand (encode i) s = exec i s) ∧
  (∀ s t : State, step s = .next t → s.status.flt = 1 →
    t.status.flt = 1 ∨ s.pending.head? = some .reset ∧ t.status.flt = 0)

/-- R152: `FLT` = 0 at the end of a run without reset says that no fault happened anywhere in it. -/
def Obligations.NoFaultAtEndMeansNoFaultAnywhere : Prop :=
  ∀ (n m : Nat) (s u t : State), UnitInvariant s → NoResetPending s →
    runSteps n s = .next u → runSteps m u = .next t → NoFaultRecorded t →
    NoFaultRecorded u ∧ u.status.code.isFault = false

/-- R152 as one step: with no reset pending a step keeps the invariant and keeps resets out of the host's
list, and if no fault is recorded after it, none was before it and the outcome then was no fault. -/
def Obligations.StepWithoutResetKeepsRecordedFaults : Prop :=
  ∀ s t : State, UnitInvariant s → NoResetPending s → step s = .next t →
    UnitInvariant t ∧ NoResetPending t ∧
      (NoFaultRecorded t → NoFaultRecorded s ∧ s.status.code.isFault = false)

/-! ### Invariant and reset -/

/-- Every step keeps the invariant of the unit. -/
def Obligations.StepKeepsTheInvariant : Prop :=
  ∀ s t : State, UnitInvariant s → step s = .next t → UnitInvariant t

/-- The reset state meets the invariant. -/
def Obligations.ResetMeetsTheInvariant : Prop := UnitInvariant State.reset

/-- R41: the registers after reset, as the host reads them. -/
def Obligations.RegistersAfterReset : Prop :=
  ∀ r : Reg, State.reset.readReg r = 0

/-- R41, U7: no rule constrains a cell after reset; in the model each holds a free value, picked anew by each
reset event (log entry 2). -/
def Obligations.CellsAfterResetAreFree : Prop :=
  (∀ a, State.reset.memRead a = Config.rasAfterReset 0 a) ∧
  ∀ (s : State) (a : Nat), s.resetUnit.memRead a = Config.rasAfterReset (s.resets + 1) a

/-- R175: a reset event, between steps, puts every register at its reset value from any state. What it does to
the model's own fields is log entry 9. -/
def Obligations.ResetEventRestoresEveryRegister : Prop :=
  ∀ (s : State) (rest : List HostEvent), s.pending = .reset :: rest →
    ∃ t, step s = .next t ∧ (∀ r : Reg, t.readReg r = 0) ∧ t.ras = [] ∧ t.rasterCap = s.rasterCap ∧
      t.resets = s.resets + 1 ∧ t.pending = rest ∧ t.returned = s.returned

/-- R176: each command issued straight after reset. -/
def Obligations.CommandsStraightAfterReset : Prop :=
  exec .chk State.reset = .next (State.reset.complete .identifierFormatError) ∧
  exec .val State.reset = .next (State.reset.complete .identifierFormatError) ∧
  exec .enc State.reset = .next (State.reset.complete .identifierFormatError) ∧
  exec .dec State.reset = .next (State.reset.complete .structureError) ∧
  exec .smp State.reset = .next (State.reset.complete .rangeError) ∧
  exec .ext State.reset = .next (State.reset.complete .rangeError) ∧
  exec .loc State.reset = .next (State.reset.complete .notFoundError)

/-! ### Host access -/

/-- R22, R40: which number names which register, and which numbers are unmapped. -/
def Obligations.RegisterNumbersNameRegisters : Prop :=
  (∀ (n : Nat) (r : Reg), regOf n = some r ↔ r.number = n) ∧
  ∀ n : Nat, regOf n = none ↔ 0x0D ≤ n ∧ n ≤ 0x0F ∨ 0x18 ≤ n ∧ n ≤ 0x3F ∨ 0x83 ≤ n

/-- R24, R150: `STATUS` as the host reads it, field by field. -/
def Obligations.StatusReadsFieldByField : Prop :=
  ∀ s : State,
    s.readReg .status = s.status.code.number.toNat + 16 * s.status.valid.toNat
      + 32 * s.status.bit.toNat + 128 * s.status.flt.toNat

/-- R38: a value the host writes to a writable register is read back, and no other register or cell
changes. -/
def Obligations.HostWriteIsReadBack : Prop :=
  ∀ (s : State) (r : Reg) (v : Nat) (rest : List HostEvent),
    r ≠ .cmd → r.readOnly = false → v < 2 ^ r.width →
    s.pending = .write r.number v :: .read r.number :: rest →
    ∃ t u, step s = .next t ∧ step t = .next u ∧ u.returned = v :: s.returned ∧ u.pending = rest ∧
      (∀ r', r' ≠ r → u.readReg r' = s.readReg r') ∧ (∀ a, u.memRead a = s.memRead a)

/-- R39: access rights. -/
def Obligations.HostAccessRights : Prop :=
  (∀ (s : State) (r : Reg) (v : Nat) (rest : List HostEvent), r.readOnly = true → v < 2 ^ r.width →
    s.pending = .write r.number v :: rest → step s = .next { s with pending := rest }) ∧
  (∀ s : State, s.readReg .cmd = 0) ∧
  (∀ s : State, (s.readReg .status).testBit 3 = false ∧ (s.readReg .status).testBit 6 = false) ∧
  (∀ (s : State) (r : Reg) (rest : List HostEvent), s.pending = .read r.number :: rest →
    step s = .next { s with pending := rest, returned := s.readReg r :: s.returned }) ∧
  (∀ (s : State) (a : Nat) (rest : List HostEvent), s.pending = .readRas a :: rest →
    a < s.rasterCap →
    step s = .next { s with pending := rest, returned := (s.memRead a).toNat :: s.returned }) ∧
  (∀ (s t : State) (r : Reg) (v : Nat) (rest : List HostEvent), r ≠ .cmd →
    s.pending = .write r.number v :: rest → step s = .next t →
    t.status = s.status ∧ (∀ r', r' ≠ r → t.readReg r' = s.readReg r') ∧
      ∀ a, t.memRead a = s.memRead a)

/-- R40, R38: the accesses that have no meaning are refused, each by a name of its own. That a value too wide
for `CMD` or for a read-only register is refused like any other is log entry 15. -/
def Obligations.MeaninglessHostAccessesAreRefused : Prop :=
  ∀ (s : State) (rest : List HostEvent),
    (∀ n, regOf n = none → s.pending = .read n :: rest → step s = .refused (.unmappedRegister n)) ∧
    (∀ n v, regOf n = none → s.pending = .write n v :: rest →
      step s = .refused (.unmappedRegister n)) ∧
    (∀ (r : Reg) (v : Nat), 2 ^ r.width ≤ v → s.pending = .write r.number v :: rest →
      step s = .refused (.valueTooWide r.number v)) ∧
    (∀ a, s.rasterCap ≤ a → s.pending = .readRas a :: rest →
      step s = .refused (.cellOutOfCapacity a)) ∧
    (∀ a b, s.rasterCap ≤ a → s.pending = .writeRas a b :: rest →
      step s = .refused (.cellOutOfCapacity a))

/-- R38, R13: a cell the host writes is read back, and no other cell or register changes. -/
def Obligations.RasterCellIsReadBack : Prop :=
  ∀ (s : State) (a : Nat) (b : Bit) (rest : List HostEvent), a < s.rasterCap →
    s.pending = .writeRas a b :: .readRas a :: rest →
    ∃ t u, step s = .next t ∧ step t = .next u ∧ u.returned = b.toNat :: s.returned ∧
      u.pending = rest ∧ (∀ a', a' ≠ a → u.memRead a' = s.memRead a') ∧
      ∀ r : Reg, u.readReg r = s.readReg r

/-- R66, R52: after the host has loaded a raster, `Pixel` reads it row by row; nothing but `W`, `H` and the
raster's cells has changed. -/
def Obligations.LoadedRasterIsReadRowMajor : Prop :=
  ∀ (s : State) (width height : Nat) (pixels : List Bit) (rest : List HostEvent),
    width < 2 ^ 16 → height < 2 ^ 16 → pixels.length = width * height →
    width * height ≤ s.rasterCap → s.pending = loadRaster width height pixels ++ rest →
    ∃ t : State, runSteps (2 + pixels.length) s = .next t ∧
      (∀ row col, row < height → col < width →
        pixels[row * width + col]? = some (t.pixel row col)) ∧
      (∀ a, width * height ≤ a → t.memRead a = s.memRead a) ∧
      t = { s with
        w := BitVec.ofNat 16 width, h := BitVec.ofNat 16 height, ras := t.ras, pending := rest }

/-- R76: the expansions of `wrid` and `wrpat` present their string to the unit. -/
def Obligations.PresentedStringsReachTheRegisters : Prop :=
  (∀ (s : State) (str : List Byte) (rest : List HostEvent), str.length ≤ 255 →
    s.pending = (Stmt.wrid str).expand ++ rest →
    ∃ t : State, runSteps (min str.length 8 + 1) s = .next t ∧
      t = { s with idbuf := t.idbuf, idlen := t.idlen, pending := rest } ∧
      t.idlen.toNat = str.length ∧
      ∀ i : Fin 8, t.idbuf[i] = if h : i.val < str.length then str[i.val] else s.idbuf[i]) ∧
  (∀ (s : State) (str : List Bit) (rest : List HostEvent), str.length ≤ 255 →
    s.pending = (Stmt.wrpat str).expand ++ rest →
    ∃ t : State, runSteps (min str.length 67 + 1) s = .next t ∧
      t = { s with pat := t.pat, patlen := t.patlen, pending := rest } ∧
      t.patlen.toNat = str.length ∧
      ∀ k : Fin 67, t.pat[k] = if h : k.val < str.length then str[k.val] else s.pat[k])
end

