-- ==== Sys2Proof/Laws/State.lean ====
section
/-! SUPPORT. One lemma per field of State per named update, so that no later proof unfolds a record
update. -/

namespace Sys2Proof.Machine

variable (s : State)

/-! ### State.complete -/

@[simp] theorem complete_status (c : OutcomeCode) : (s.complete c).status = s.status.withOutcome c := rfl
@[simp] theorem complete_ckd (c : OutcomeCode) : (s.complete c).ckd = s.ckd := rfl
@[simp] theorem complete_idlen (c : OutcomeCode) : (s.complete c).idlen = s.idlen := rfl
@[simp] theorem complete_idbuf (c : OutcomeCode) : (s.complete c).idbuf = s.idbuf := rfl
@[simp] theorem complete_patlen (c : OutcomeCode) : (s.complete c).patlen = s.patlen := rfl
@[simp] theorem complete_pat (c : OutcomeCode) : (s.complete c).pat = s.pat := rfl
@[simp] theorem complete_w (c : OutcomeCode) : (s.complete c).w = s.w := rfl
@[simp] theorem complete_h (c : OutcomeCode) : (s.complete c).h = s.h := rfl
@[simp] theorem complete_row (c : OutcomeCode) : (s.complete c).row = s.row := rfl
@[simp] theorem complete_col (c : OutcomeCode) : (s.complete c).col = s.col := rfl
@[simp] theorem complete_mw (c : OutcomeCode) : (s.complete c).mw = s.mw := rfl
@[simp] theorem complete_lmw (c : OutcomeCode) : (s.complete c).lmw = s.lmw := rfl
@[simp] theorem complete_lrow (c : OutcomeCode) : (s.complete c).lrow = s.lrow := rfl
@[simp] theorem complete_lcol (c : OutcomeCode) : (s.complete c).lcol = s.lcol := rfl
@[simp] theorem complete_ras (c : OutcomeCode) : (s.complete c).ras = s.ras := rfl
@[simp] theorem complete_rasterCap (c : OutcomeCode) : (s.complete c).rasterCap = s.rasterCap := rfl
@[simp] theorem complete_resets (c : OutcomeCode) : (s.complete c).resets = s.resets := rfl
@[simp] theorem complete_pending (c : OutcomeCode) : (s.complete c).pending = s.pending := rfl
@[simp] theorem complete_returned (c : OutcomeCode) : (s.complete c).returned = s.returned := rfl

/-! ### State.setCkd -/

@[simp] theorem setCkd_status (d : Digit) : (s.setCkd d).status = s.status := rfl
@[simp] theorem setCkd_ckd (d : Digit) : (s.setCkd d).ckd = BitVec.ofNat 4 d.val := rfl
@[simp] theorem setCkd_idlen (d : Digit) : (s.setCkd d).idlen = s.idlen := rfl
@[simp] theorem setCkd_idbuf (d : Digit) : (s.setCkd d).idbuf = s.idbuf := rfl
@[simp] theorem setCkd_patlen (d : Digit) : (s.setCkd d).patlen = s.patlen := rfl
@[simp] theorem setCkd_pat (d : Digit) : (s.setCkd d).pat = s.pat := rfl
@[simp] theorem setCkd_w (d : Digit) : (s.setCkd d).w = s.w := rfl
@[simp] theorem setCkd_h (d : Digit) : (s.setCkd d).h = s.h := rfl
@[simp] theorem setCkd_row (d : Digit) : (s.setCkd d).row = s.row := rfl
@[simp] theorem setCkd_col (d : Digit) : (s.setCkd d).col = s.col := rfl
@[simp] theorem setCkd_mw (d : Digit) : (s.setCkd d).mw = s.mw := rfl
@[simp] theorem setCkd_lmw (d : Digit) : (s.setCkd d).lmw = s.lmw := rfl
@[simp] theorem setCkd_lrow (d : Digit) : (s.setCkd d).lrow = s.lrow := rfl
@[simp] theorem setCkd_lcol (d : Digit) : (s.setCkd d).lcol = s.lcol := rfl
@[simp] theorem setCkd_ras (d : Digit) : (s.setCkd d).ras = s.ras := rfl
@[simp] theorem setCkd_rasterCap (d : Digit) : (s.setCkd d).rasterCap = s.rasterCap := rfl
@[simp] theorem setCkd_resets (d : Digit) : (s.setCkd d).resets = s.resets := rfl
@[simp] theorem setCkd_pending (d : Digit) : (s.setCkd d).pending = s.pending := rfl
@[simp] theorem setCkd_returned (d : Digit) : (s.setCkd d).returned = s.returned := rfl

/-! ### State.setValid -/

@[simp] theorem setValid_status (b : Bit) : (s.setValid b).status = { s.status with valid := b } := rfl
@[simp] theorem setValid_ckd (b : Bit) : (s.setValid b).ckd = s.ckd := rfl
@[simp] theorem setValid_idlen (b : Bit) : (s.setValid b).idlen = s.idlen := rfl
@[simp] theorem setValid_idbuf (b : Bit) : (s.setValid b).idbuf = s.idbuf := rfl
@[simp] theorem setValid_patlen (b : Bit) : (s.setValid b).patlen = s.patlen := rfl
@[simp] theorem setValid_pat (b : Bit) : (s.setValid b).pat = s.pat := rfl
@[simp] theorem setValid_w (b : Bit) : (s.setValid b).w = s.w := rfl
@[simp] theorem setValid_h (b : Bit) : (s.setValid b).h = s.h := rfl
@[simp] theorem setValid_row (b : Bit) : (s.setValid b).row = s.row := rfl
@[simp] theorem setValid_col (b : Bit) : (s.setValid b).col = s.col := rfl
@[simp] theorem setValid_mw (b : Bit) : (s.setValid b).mw = s.mw := rfl
@[simp] theorem setValid_lmw (b : Bit) : (s.setValid b).lmw = s.lmw := rfl
@[simp] theorem setValid_lrow (b : Bit) : (s.setValid b).lrow = s.lrow := rfl
@[simp] theorem setValid_lcol (b : Bit) : (s.setValid b).lcol = s.lcol := rfl
@[simp] theorem setValid_ras (b : Bit) : (s.setValid b).ras = s.ras := rfl
@[simp] theorem setValid_rasterCap (b : Bit) : (s.setValid b).rasterCap = s.rasterCap := rfl
@[simp] theorem setValid_resets (b : Bit) : (s.setValid b).resets = s.resets := rfl
@[simp] theorem setValid_pending (b : Bit) : (s.setValid b).pending = s.pending := rfl
@[simp] theorem setValid_returned (b : Bit) : (s.setValid b).returned = s.returned := rfl

/-! ### State.setBit -/

@[simp] theorem setBit_status (b : Bit) : (s.setBit b).status = { s.status with bit := b } := rfl
@[simp] theorem setBit_ckd (b : Bit) : (s.setBit b).ckd = s.ckd := rfl
@[simp] theorem setBit_idlen (b : Bit) : (s.setBit b).idlen = s.idlen := rfl
@[simp] theorem setBit_idbuf (b : Bit) : (s.setBit b).idbuf = s.idbuf := rfl
@[simp] theorem setBit_patlen (b : Bit) : (s.setBit b).patlen = s.patlen := rfl
@[simp] theorem setBit_pat (b : Bit) : (s.setBit b).pat = s.pat := rfl
@[simp] theorem setBit_w (b : Bit) : (s.setBit b).w = s.w := rfl
@[simp] theorem setBit_h (b : Bit) : (s.setBit b).h = s.h := rfl
@[simp] theorem setBit_row (b : Bit) : (s.setBit b).row = s.row := rfl
@[simp] theorem setBit_col (b : Bit) : (s.setBit b).col = s.col := rfl
@[simp] theorem setBit_mw (b : Bit) : (s.setBit b).mw = s.mw := rfl
@[simp] theorem setBit_lmw (b : Bit) : (s.setBit b).lmw = s.lmw := rfl
@[simp] theorem setBit_lrow (b : Bit) : (s.setBit b).lrow = s.lrow := rfl
@[simp] theorem setBit_lcol (b : Bit) : (s.setBit b).lcol = s.lcol := rfl
@[simp] theorem setBit_ras (b : Bit) : (s.setBit b).ras = s.ras := rfl
@[simp] theorem setBit_rasterCap (b : Bit) : (s.setBit b).rasterCap = s.rasterCap := rfl
@[simp] theorem setBit_resets (b : Bit) : (s.setBit b).resets = s.resets := rfl
@[simp] theorem setBit_pending (b : Bit) : (s.setBit b).pending = s.pending := rfl
@[simp] theorem setBit_returned (b : Bit) : (s.setBit b).returned = s.returned := rfl

/-! ### State.setIdentifier -/

@[simp] theorem setIdentifier_status (d : Vector Digit 8) : (s.setIdentifier d).status = s.status := rfl
@[simp] theorem setIdentifier_ckd (d : Vector Digit 8) : (s.setIdentifier d).ckd = s.ckd := rfl
@[simp] theorem setIdentifier_idlen (d : Vector Digit 8) : (s.setIdentifier d).idlen = 8 := rfl
@[simp] theorem setIdentifier_idbuf (d : Vector Digit 8) : (s.setIdentifier d).idbuf = Vector.ofFn fun i : Fin 8 => digitChar d[i] := rfl
@[simp] theorem setIdentifier_patlen (d : Vector Digit 8) : (s.setIdentifier d).patlen = s.patlen := rfl
@[simp] theorem setIdentifier_pat (d : Vector Digit 8) : (s.setIdentifier d).pat = s.pat := rfl
@[simp] theorem setIdentifier_w (d : Vector Digit 8) : (s.setIdentifier d).w = s.w := rfl
@[simp] theorem setIdentifier_h (d : Vector Digit 8) : (s.setIdentifier d).h = s.h := rfl
@[simp] theorem setIdentifier_row (d : Vector Digit 8) : (s.setIdentifier d).row = s.row := rfl
@[simp] theorem setIdentifier_col (d : Vector Digit 8) : (s.setIdentifier d).col = s.col := rfl
@[simp] theorem setIdentifier_mw (d : Vector Digit 8) : (s.setIdentifier d).mw = s.mw := rfl
@[simp] theorem setIdentifier_lmw (d : Vector Digit 8) : (s.setIdentifier d).lmw = s.lmw := rfl
@[simp] theorem setIdentifier_lrow (d : Vector Digit 8) : (s.setIdentifier d).lrow = s.lrow := rfl
@[simp] theorem setIdentifier_lcol (d : Vector Digit 8) : (s.setIdentifier d).lcol = s.lcol := rfl
@[simp] theorem setIdentifier_ras (d : Vector Digit 8) : (s.setIdentifier d).ras = s.ras := rfl
@[simp] theorem setIdentifier_rasterCap (d : Vector Digit 8) : (s.setIdentifier d).rasterCap = s.rasterCap := rfl
@[simp] theorem setIdentifier_resets (d : Vector Digit 8) : (s.setIdentifier d).resets = s.resets := rfl
@[simp] theorem setIdentifier_pending (d : Vector Digit 8) : (s.setIdentifier d).pending = s.pending := rfl
@[simp] theorem setIdentifier_returned (d : Vector Digit 8) : (s.setIdentifier d).returned = s.returned := rfl

/-! ### State.setPattern -/

@[simp] theorem setPattern_status (p : Vector Bit 67) : (s.setPattern p).status = s.status := rfl
@[simp] theorem setPattern_ckd (p : Vector Bit 67) : (s.setPattern p).ckd = s.ckd := rfl
@[simp] theorem setPattern_idlen (p : Vector Bit 67) : (s.setPattern p).idlen = s.idlen := rfl
@[simp] theorem setPattern_idbuf (p : Vector Bit 67) : (s.setPattern p).idbuf = s.idbuf := rfl
@[simp] theorem setPattern_patlen (p : Vector Bit 67) : (s.setPattern p).patlen = 67 := rfl
@[simp] theorem setPattern_pat (p : Vector Bit 67) : (s.setPattern p).pat = p := rfl
@[simp] theorem setPattern_w (p : Vector Bit 67) : (s.setPattern p).w = s.w := rfl
@[simp] theorem setPattern_h (p : Vector Bit 67) : (s.setPattern p).h = s.h := rfl
@[simp] theorem setPattern_row (p : Vector Bit 67) : (s.setPattern p).row = s.row := rfl
@[simp] theorem setPattern_col (p : Vector Bit 67) : (s.setPattern p).col = s.col := rfl
@[simp] theorem setPattern_mw (p : Vector Bit 67) : (s.setPattern p).mw = s.mw := rfl
@[simp] theorem setPattern_lmw (p : Vector Bit 67) : (s.setPattern p).lmw = s.lmw := rfl
@[simp] theorem setPattern_lrow (p : Vector Bit 67) : (s.setPattern p).lrow = s.lrow := rfl
@[simp] theorem setPattern_lcol (p : Vector Bit 67) : (s.setPattern p).lcol = s.lcol := rfl
@[simp] theorem setPattern_ras (p : Vector Bit 67) : (s.setPattern p).ras = s.ras := rfl
@[simp] theorem setPattern_rasterCap (p : Vector Bit 67) : (s.setPattern p).rasterCap = s.rasterCap := rfl
@[simp] theorem setPattern_resets (p : Vector Bit 67) : (s.setPattern p).resets = s.resets := rfl
@[simp] theorem setPattern_pending (p : Vector Bit 67) : (s.setPattern p).pending = s.pending := rfl
@[simp] theorem setPattern_returned (p : Vector Bit 67) : (s.setPattern p).returned = s.returned := rfl

/-! ### State.setMatch -/

@[simp] theorem setMatch_status (m r c : Nat) : (s.setMatch m r c).status = s.status := rfl
@[simp] theorem setMatch_ckd (m r c : Nat) : (s.setMatch m r c).ckd = s.ckd := rfl
@[simp] theorem setMatch_idlen (m r c : Nat) : (s.setMatch m r c).idlen = s.idlen := rfl
@[simp] theorem setMatch_idbuf (m r c : Nat) : (s.setMatch m r c).idbuf = s.idbuf := rfl
@[simp] theorem setMatch_patlen (m r c : Nat) : (s.setMatch m r c).patlen = s.patlen := rfl
@[simp] theorem setMatch_pat (m r c : Nat) : (s.setMatch m r c).pat = s.pat := rfl
@[simp] theorem setMatch_w (m r c : Nat) : (s.setMatch m r c).w = s.w := rfl
@[simp] theorem setMatch_h (m r c : Nat) : (s.setMatch m r c).h = s.h := rfl
@[simp] theorem setMatch_row (m r c : Nat) : (s.setMatch m r c).row = s.row := rfl
@[simp] theorem setMatch_col (m r c : Nat) : (s.setMatch m r c).col = s.col := rfl
@[simp] theorem setMatch_mw (m r c : Nat) : (s.setMatch m r c).mw = s.mw := rfl
@[simp] theorem setMatch_lmw (m r c : Nat) : (s.setMatch m r c).lmw = BitVec.ofNat 16 m := rfl
@[simp] theorem setMatch_lrow (m r c : Nat) : (s.setMatch m r c).lrow = BitVec.ofNat 16 r := rfl
@[simp] theorem setMatch_lcol (m r c : Nat) : (s.setMatch m r c).lcol = BitVec.ofNat 16 c := rfl
@[simp] theorem setMatch_ras (m r c : Nat) : (s.setMatch m r c).ras = s.ras := rfl
@[simp] theorem setMatch_rasterCap (m r c : Nat) : (s.setMatch m r c).rasterCap = s.rasterCap := rfl
@[simp] theorem setMatch_resets (m r c : Nat) : (s.setMatch m r c).resets = s.resets := rfl
@[simp] theorem setMatch_pending (m r c : Nat) : (s.setMatch m r c).pending = s.pending := rfl
@[simp] theorem setMatch_returned (m r c : Nat) : (s.setMatch m r c).returned = s.returned := rfl

/-! ### State.giveHost -/

@[simp] theorem giveHost_status (v : Nat) : (s.giveHost v).status = s.status := rfl
@[simp] theorem giveHost_ckd (v : Nat) : (s.giveHost v).ckd = s.ckd := rfl
@[simp] theorem giveHost_idlen (v : Nat) : (s.giveHost v).idlen = s.idlen := rfl
@[simp] theorem giveHost_idbuf (v : Nat) : (s.giveHost v).idbuf = s.idbuf := rfl
@[simp] theorem giveHost_patlen (v : Nat) : (s.giveHost v).patlen = s.patlen := rfl
@[simp] theorem giveHost_pat (v : Nat) : (s.giveHost v).pat = s.pat := rfl
@[simp] theorem giveHost_w (v : Nat) : (s.giveHost v).w = s.w := rfl
@[simp] theorem giveHost_h (v : Nat) : (s.giveHost v).h = s.h := rfl
@[simp] theorem giveHost_row (v : Nat) : (s.giveHost v).row = s.row := rfl
@[simp] theorem giveHost_col (v : Nat) : (s.giveHost v).col = s.col := rfl
@[simp] theorem giveHost_mw (v : Nat) : (s.giveHost v).mw = s.mw := rfl
@[simp] theorem giveHost_lmw (v : Nat) : (s.giveHost v).lmw = s.lmw := rfl
@[simp] theorem giveHost_lrow (v : Nat) : (s.giveHost v).lrow = s.lrow := rfl
@[simp] theorem giveHost_lcol (v : Nat) : (s.giveHost v).lcol = s.lcol := rfl
@[simp] theorem giveHost_ras (v : Nat) : (s.giveHost v).ras = s.ras := rfl
@[simp] theorem giveHost_rasterCap (v : Nat) : (s.giveHost v).rasterCap = s.rasterCap := rfl
@[simp] theorem giveHost_resets (v : Nat) : (s.giveHost v).resets = s.resets := rfl
@[simp] theorem giveHost_pending (v : Nat) : (s.giveHost v).pending = s.pending := rfl
@[simp] theorem giveHost_returned (v : Nat) : (s.giveHost v).returned = v :: s.returned := rfl

/-! ### State.memWrite, whose state is an explicit argument in front -/

@[simp] theorem memWrite_status (a : Nat) (b : Bit) : (s.memWrite a b).status = s.status := rfl
@[simp] theorem memWrite_ckd (a : Nat) (b : Bit) : (s.memWrite a b).ckd = s.ckd := rfl
@[simp] theorem memWrite_idlen (a : Nat) (b : Bit) : (s.memWrite a b).idlen = s.idlen := rfl
@[simp] theorem memWrite_idbuf (a : Nat) (b : Bit) : (s.memWrite a b).idbuf = s.idbuf := rfl
@[simp] theorem memWrite_patlen (a : Nat) (b : Bit) : (s.memWrite a b).patlen = s.patlen := rfl
@[simp] theorem memWrite_pat (a : Nat) (b : Bit) : (s.memWrite a b).pat = s.pat := rfl
@[simp] theorem memWrite_w (a : Nat) (b : Bit) : (s.memWrite a b).w = s.w := rfl
@[simp] theorem memWrite_h (a : Nat) (b : Bit) : (s.memWrite a b).h = s.h := rfl
@[simp] theorem memWrite_row (a : Nat) (b : Bit) : (s.memWrite a b).row = s.row := rfl
@[simp] theorem memWrite_col (a : Nat) (b : Bit) : (s.memWrite a b).col = s.col := rfl
@[simp] theorem memWrite_mw (a : Nat) (b : Bit) : (s.memWrite a b).mw = s.mw := rfl
@[simp] theorem memWrite_lmw (a : Nat) (b : Bit) : (s.memWrite a b).lmw = s.lmw := rfl
@[simp] theorem memWrite_lrow (a : Nat) (b : Bit) : (s.memWrite a b).lrow = s.lrow := rfl
@[simp] theorem memWrite_lcol (a : Nat) (b : Bit) : (s.memWrite a b).lcol = s.lcol := rfl
@[simp] theorem memWrite_ras (a : Nat) (b : Bit) : (s.memWrite a b).ras = Memory.write s.ras a b := rfl
@[simp] theorem memWrite_rasterCap (a : Nat) (b : Bit) : (s.memWrite a b).rasterCap = s.rasterCap := rfl
@[simp] theorem memWrite_resets (a : Nat) (b : Bit) : (s.memWrite a b).resets = s.resets := rfl
@[simp] theorem memWrite_pending (a : Nat) (b : Bit) : (s.memWrite a b).pending = s.pending := rfl
@[simp] theorem memWrite_returned (a : Nat) (b : Bit) : (s.memWrite a b).returned = s.returned := rfl

/-! ### Status.withOutcome -/

@[simp] theorem withOutcome_code (c : OutcomeCode) (f : Status) : (f.withOutcome c).code = c := rfl
@[simp] theorem withOutcome_valid (c : OutcomeCode) (f : Status) : (f.withOutcome c).valid = f.valid := rfl
@[simp] theorem withOutcome_bit (c : OutcomeCode) (f : Status) : (f.withOutcome c).bit = f.bit := rfl
@[simp] theorem withOutcome_flt (c : OutcomeCode) (f : Status) : (f.withOutcome c).flt = if c.isFault then 1 else f.flt := rfl

/-! ### State.resetUnit: the model's own fields, and memory -/

@[simp] theorem resetUnit_status : s.resetUnit.status = { code := .ok, valid := 0, bit := 0, flt := 0 } := rfl
@[simp] theorem resetUnit_ras : s.resetUnit.ras = [] := rfl
@[simp] theorem resetUnit_rasterCap : s.resetUnit.rasterCap = s.rasterCap := rfl
@[simp] theorem resetUnit_resets : s.resetUnit.resets = s.resets + 1 := rfl
@[simp] theorem resetUnit_pending : s.resetUnit.pending = s.pending := rfl
@[simp] theorem resetUnit_returned : s.resetUnit.returned = s.returned := rfl

/-- The registers after a reset event are those of `State.reset` (R175). -/
theorem resetUnit_eq : s.resetUnit =
    { State.reset with
      rasterCap := s.rasterCap, resets := s.resets + 1, pending := s.pending, returned := s.returned } :=
  rfl

end Sys2Proof.Machine
end

