-- ==== Sys2Proof/Laws/Memory.lean ====
section
/-! SUPPORT. Cells of `RAS`: a read after a write, the canonical form and its extensionality, and the
cells a state update leaves alone. -/

namespace Sys2Proof.Machine

/-! ### A read after a write -/

@[simp] theorem lookup_write_same (m : Memory) (a : Nat) (b : Bit) :
    Memory.lookup (Memory.write m a b) a = some b := by
  induction m with
  | nil => simp [Memory.write, Memory.lookup]
  | cons x rest ih =>
    obtain ⟨a', b'⟩ := x
    simp only [Memory.write]
    split
    · simp [Memory.lookup]
    · split
      · simp [Memory.lookup]
      · rename_i _ hne
        simp [Memory.lookup, Ne.symm hne, ih]

theorem lookup_write_ne {m : Memory} {a a' : Nat} (b : Bit) (h : a' ≠ a) :
    Memory.lookup (Memory.write m a b) a' = Memory.lookup m a' := by
  induction m with
  | nil => simp [Memory.write, Memory.lookup, Ne.symm h]
  | cons x rest ih =>
    obtain ⟨c, d⟩ := x
    simp only [Memory.write]
    split
    · simp [Memory.lookup, Ne.symm h]
    · split
      · rename_i _ he
        subst he
        simp [Memory.lookup, Ne.symm h]
      · simp [Memory.lookup, ih]

/-! ### The canonical form -/

theorem mem_write {m : Memory} {a : Nat} {b : Bit} {x : Nat × Bit} (h : x ∈ Memory.write m a b) :
    x = (a, b) ∨ x ∈ m := by
  induction m with
  | nil => exact .inl (by simpa [Memory.write] using h)
  | cons y rest ih =>
    obtain ⟨c, d⟩ := y
    simp only [Memory.write] at h
    split at h
    · simpa using h
    · split at h
      · rcases List.mem_cons.1 h with h | h
        · exact .inl h
        · exact .inr (List.mem_cons_of_mem _ h)
      · rcases List.mem_cons.1 h with h | h
        · exact .inr (by simp [h])
        · exact (ih h).imp_right (List.mem_cons_of_mem _)

theorem wf_write {m : Memory} (h : Memory.wf m) (a : Nat) (b : Bit) : Memory.wf (Memory.write m a b) := by
  induction m with
  | nil => simp [Memory.wf, Memory.write]
  | cons y rest ih =>
    obtain ⟨c, d⟩ := y
    obtain ⟨hhead, htail⟩ := List.pairwise_cons.1 h
    simp only [Memory.write]
    split
    · rename_i hlt
      refine List.pairwise_cons.2 ⟨fun x hx => ?_, h⟩
      rcases List.mem_cons.1 hx with rfl | hx
      · exact hlt
      · exact Nat.lt_trans hlt (hhead x hx)
    · split
      · rename_i _ he
        subst he
        exact List.pairwise_cons.2 ⟨hhead, htail⟩
      · refine List.pairwise_cons.2 ⟨fun x hx => ?_, ih htail⟩
        rcases mem_write hx with rfl | hx
        · show c < a
          omega
        · exact hhead x hx

theorem within_write {m : Memory} {cap a : Nat} (h : Memory.within cap m) (ha : a < cap) (b : Bit) :
    Memory.within cap (Memory.write m a b) := by
  intro x hx
  rcases mem_write hx with rfl | hx
  · exact ha
  · exact h x hx

theorem lookup_eq_none {m : Memory} {a : Nat} (h : ∀ x ∈ m, a < x.1) : Memory.lookup m a = none := by
  induction m with
  | nil => rfl
  | cons y rest ih =>
    have h1 : a < y.1 := h y (by simp)
    have : y.1 ≠ a := by omega
    simp [Memory.lookup, this, ih fun x hx => h x (List.mem_cons_of_mem _ hx)]

/-- Equal memories are equal data: two canonical lists that answer every lookup alike are one list. -/
theorem ext_of_wf {m n : Memory} (hm : Memory.wf m) (hn : Memory.wf n)
    (h : ∀ a, Memory.lookup m a = Memory.lookup n a) : m = n := by
  induction m generalizing n with
  | nil =>
    cases n with
    | nil => rfl
    | cons y _ => have := h y.1; simp [Memory.lookup] at this
  | cons x rest ih =>
    cases n with
    | nil => have := h x.1; simp [Memory.lookup] at this
    | cons y rest' =>
      obtain ⟨a, b⟩ := x
      obtain ⟨c, d⟩ := y
      obtain ⟨hx, hm'⟩ := List.pairwise_cons.1 hm
      obtain ⟨hy, hn'⟩ := List.pairwise_cons.1 hn
      have hac : a = c := by
        rcases Nat.lt_trichotomy a c with hlt | heq | hgt
        · have h0 : Memory.lookup ((c, d) :: rest') a = none := by
            refine lookup_eq_none fun z hz => ?_
            rcases List.mem_cons.1 hz with rfl | hz
            · exact hlt
            · exact Nat.lt_trans hlt (hy z hz)
          have := h a
          simp [Memory.lookup] at this h0
          simp [h0] at this
        · exact heq
        · have h0 : Memory.lookup ((a, b) :: rest) c = none := by
            refine lookup_eq_none fun z hz => ?_
            rcases List.mem_cons.1 hz with rfl | hz
            · exact hgt
            · exact Nat.lt_trans hgt (hx z hz)
          have := h c
          simp [Memory.lookup] at this h0
          simp [h0] at this
      subst hac
      have hbd : b = d := by have := h a; simpa [Memory.lookup] using this
      subst hbd
      refine congrArg _ (ih hm' hn' fun z => ?_)
      by_cases hz : a = z
      · subst hz
        rw [lookup_eq_none hx, lookup_eq_none hy]
      · have := h z
        simpa [Memory.lookup, hz] using this

/-! ### Reading a cell -/

@[simp] theorem memRead_memWrite_same (s : State) (a : Nat) (b : Bit) :
    (s.memWrite a b).memRead a = b := by
  simp [State.memRead]

theorem memRead_memWrite_ne (s : State) {a a' : Nat} (b : Bit) (h : a' ≠ a) :
    (s.memWrite a b).memRead a' = s.memRead a' := by
  simp [State.memRead, lookup_write_ne b h]

/-- A cell reads alike in two states with the same `RAS` since the same reset. -/
theorem memRead_congr {s t : State} (hr : t.ras = s.ras) (he : t.resets = s.resets) (a : Nat) :
    t.memRead a = s.memRead a := by
  simp [State.memRead, hr, he]

theorem pixel_congr {s t : State} (hr : t.ras = s.ras) (he : t.resets = s.resets) (hw : t.w = s.w) :
    t.pixel = s.pixel := by
  funext row col
  simp [State.pixel, hw, memRead_congr hr he]

end Sys2Proof.Machine
end

