-- ==== Sys2Proof/Laws/Commands.lean ====
section
/-! SUPPORT. What each command, host access and step can do, said once. -/

namespace Sys2Proof.Machine

/-! ### The commands: each ends in a next state, one of these -/

theorem execChk_cases {s t : State} (h : execChk s = .next t) :
    (wellFormedPrefix s.idlen s.idbuf ∧ ∃ d, t = (s.setCkd d).complete .ok) ∨
    (¬ wellFormedPrefix s.idlen s.idbuf ∧ t = s.complete .identifierFormatError) := by
  unfold execChk at h
  split at h
  · rename_i hw
    exact .inl ⟨hw, _, (Host.Outcome.next.inj h).symm⟩
  · rename_i hw
    exact .inr ⟨hw, (Host.Outcome.next.inj h).symm⟩

theorem execVal_cases {s t : State} (h : execVal s = .next t) :
    (¬ wellFormedId s.idlen s.idbuf ∧ t = (s.setValid 0).complete .identifierFormatError) ∨
    (wellFormedId s.idlen s.idbuf ∧ ¬ cksumOK (digits s.idbuf) ∧
      t = (s.setValid 0).complete .checksumError) ∨
    (validId s.idlen s.idbuf ∧ t = (s.setValid 1).complete .ok) := by
  unfold execVal at h
  split at h
  · rename_i hw
    exact .inl ⟨hw, (Host.Outcome.next.inj h).symm⟩
  · rename_i hw
    have hw := Decidable.not_not.1 hw
    split at h
    · rename_i hc
      exact .inr (.inl ⟨hw, hc, (Host.Outcome.next.inj h).symm⟩)
    · rename_i hc
      exact .inr (.inr ⟨⟨hw, Decidable.not_not.1 hc⟩, (Host.Outcome.next.inj h).symm⟩)

theorem execEnc_cases {s t : State} (h : execEnc s = .next t) :
    (¬ wellFormedId s.idlen s.idbuf ∧ t = s.complete .identifierFormatError) ∨
    (wellFormedId s.idlen s.idbuf ∧ t = (s.setPattern (enc67 (digits s.idbuf))).complete .ok) := by
  unfold execEnc at h
  split at h
  · rename_i hw
    exact .inl ⟨hw, (Host.Outcome.next.inj h).symm⟩
  · rename_i hw
    exact .inr ⟨Decidable.not_not.1 hw, (Host.Outcome.next.inj h).symm⟩

theorem execDec_cases {s t : State} (h : execDec s = .next t) :
    (dec67 s.patlen.toNat s.pat = .structureError ∧ t = s.complete .structureError) ∨
    (dec67 s.patlen.toNat s.pat = .unknownSymbolError ∧ t = s.complete .unknownSymbolError) ∨
    (∃ d, dec67 s.patlen.toNat s.pat = .ok d ∧ t = (s.setIdentifier d).complete .ok) := by
  unfold execDec at h
  split at h
  · rename_i hd
    exact .inl ⟨hd, (Host.Outcome.next.inj h).symm⟩
  · rename_i hd
    exact .inr (.inl ⟨hd, (Host.Outcome.next.inj h).symm⟩)
  · rename_i d hd
    exact .inr (.inr ⟨d, hd, (Host.Outcome.next.inj h).symm⟩)

theorem execSmp_cases {s t : State} (h : execSmp s = .next t) :
    (s.rangeBad 1 ∧ t = s.complete .rangeError) ∨
    (¬ s.rangeBad 1 ∧
      t = (s.setBit (sample s.pixel s.row.toNat s.col.toNat s.mw.toNat)).complete .ok) := by
  unfold execSmp at h
  split at h
  · rename_i hb
    exact .inl ⟨hb, (Host.Outcome.next.inj h).symm⟩
  · rename_i hb
    exact .inr ⟨hb, (Host.Outcome.next.inj h).symm⟩

theorem execExt_cases {s t : State} (h : execExt s = .next t) :
    (s.rangeBad 67 ∧ t = s.complete .rangeError) ∨
    (¬ s.rangeBad 67 ∧
      t = (s.setPattern (extract s.pixel s.row.toNat s.col.toNat s.mw.toNat)).complete .ok) := by
  unfold execExt at h
  split at h
  · rename_i hb
    exact .inl ⟨hb, (Host.Outcome.next.inj h).symm⟩
  · rename_i hb
    exact .inr ⟨hb, (Host.Outcome.next.inj h).symm⟩

theorem execLoc_cases {s t : State} (h : execLoc s = .next t) :
    (¬ s.geomOK ∧ t = s.complete .rangeError) ∨
    (s.geomOK ∧ locate s.pixel s.w.toNat s.h.toNat = none ∧ t = s.complete .notFoundError) ∨
    (s.geomOK ∧ ∃ d c, locate s.pixel s.w.toNat s.h.toNat = some (d, c) ∧
      t = ((s.setIdentifier d).setMatch c.mw c.row c.col).complete .ok) := by
  unfold execLoc at h
  split at h
  · rename_i hg
    exact .inl ⟨hg, (Host.Outcome.next.inj h).symm⟩
  · rename_i hg
    have hg := Decidable.not_not.1 hg
    split at h
    · rename_i d c hl
      exact .inr (.inr ⟨hg, d, c, hl, (Host.Outcome.next.inj h).symm⟩)
    · rename_i hl
      exact .inr (.inl ⟨hg, hl, (Host.Outcome.next.inj h).symm⟩)

/-! ### The state a command leaves -/

/-- A command's next state is the state with some destinations written, then completed (R14, R42): the
shape every whole-machine claim about commands rests on. -/
theorem exec_shape {i : Instr} {s t : State} (h : exec i s = .next t) :
    ∃ u c, t = State.complete c u ∧
      (u = s ∨ (∃ d, u = s.setCkd d) ∨ (∃ b, u = s.setValid b) ∨ (∃ b, u = s.setBit b) ∨
        (∃ p, u = s.setPattern p) ∨ (∃ d, u = s.setIdentifier d) ∨
        ∃ d m r k, u = (s.setIdentifier d).setMatch m r k) := by
  cases i with
  | chk =>
    obtain ⟨-, d, rfl⟩ | ⟨-, rfl⟩ := execChk_cases h
    · exact ⟨_, _, rfl, .inr (.inl ⟨d, rfl⟩)⟩
    · exact ⟨_, _, rfl, .inl rfl⟩
  | val =>
    obtain ⟨-, rfl⟩ | ⟨-, -, rfl⟩ | ⟨-, rfl⟩ := execVal_cases h <;>
      exact ⟨_, _, rfl, .inr (.inr (.inl ⟨_, rfl⟩))⟩
  | enc =>
    obtain ⟨-, rfl⟩ | ⟨-, rfl⟩ := execEnc_cases h
    · exact ⟨_, _, rfl, .inl rfl⟩
    · exact ⟨_, _, rfl, .inr (.inr (.inr (.inr (.inl ⟨_, rfl⟩))))⟩
  | dec =>
    obtain ⟨-, rfl⟩ | ⟨-, rfl⟩ | ⟨d, -, rfl⟩ := execDec_cases h
    · exact ⟨_, _, rfl, .inl rfl⟩
    · exact ⟨_, _, rfl, .inl rfl⟩
    · exact ⟨_, _, rfl, .inr (.inr (.inr (.inr (.inr (.inl ⟨d, rfl⟩)))))⟩
  | smp =>
    obtain ⟨-, rfl⟩ | ⟨-, rfl⟩ := execSmp_cases h
    · exact ⟨_, _, rfl, .inl rfl⟩
    · exact ⟨_, _, rfl, .inr (.inr (.inr (.inl ⟨_, rfl⟩)))⟩
  | ext =>
    obtain ⟨-, rfl⟩ | ⟨-, rfl⟩ := execExt_cases h
    · exact ⟨_, _, rfl, .inl rfl⟩
    · exact ⟨_, _, rfl, .inr (.inr (.inr (.inr (.inl ⟨_, rfl⟩))))⟩
  | loc =>
    obtain ⟨-, rfl⟩ | ⟨-, -, rfl⟩ | ⟨-, d, c, -, rfl⟩ := execLoc_cases h
    · exact ⟨_, _, rfl, .inl rfl⟩
    · exact ⟨_, _, rfl, .inl rfl⟩
    · exact ⟨_, _, rfl, .inr (.inr (.inr (.inr (.inr (.inr ⟨d, _, _, _, rfl⟩)))))⟩

/-! ### Host events and steps -/

theorem step_nil {s : State} (h : s.pending = []) : step s = .next s := by
  simp [step, nextEvent, h]

theorem step_cons {s : State} {e : HostEvent} {rest : List HostEvent} (h : s.pending = e :: rest) :
    step s = perform e { s with pending := rest } := by
  simp [step, nextEvent, h]

@[simp] theorem regOf_number (r : Reg) : regOf r.number = some r := by
  cases r with
  | idbuf i =>
    have := i.isLt
    have h1 : ¬ (64 ≤ 16 + i.val ∧ 16 + i.val < 64 + 67) := by omega
    have h2 : 16 ≤ 16 + i.val ∧ 16 + i.val < 16 + 8 := by omega
    simp [Reg.number, regOf, h1, h2]
  | pat k =>
    have := k.isLt
    have h1 : 64 ≤ 64 + k.val ∧ 64 + k.val < 64 + 67 := by omega
    simp [Reg.number, regOf, h1]
  | _ => rfl

theorem hostRead_cases {r : Nat} {s t : State} (h : hostRead r s = .next t) :
    ∃ reg, regOf r = some reg ∧ t = s.giveHost (s.readReg reg) := by
  unfold hostRead at h
  split at h
  · cases h
  · rename_i reg hr
    exact ⟨reg, hr, (Host.Outcome.next.inj h).symm⟩

theorem hostWrite_cases {r v : Nat} {s t : State} (h : hostWrite r v s = .next t) :
    ∃ reg, regOf r = some reg ∧ v < 2 ^ reg.width ∧
      ((reg = .cmd ∧ runCommand (BitVec.ofNat 8 v) s = .next t) ∨
        (reg ≠ .cmd ∧ t = s.writeReg v reg)) := by
  unfold hostWrite at h
  split at h
  · cases h
  · rename_i reg hr
    split at h
    · cases h
    · rename_i hv
      split at h
      · rename_i hc
        exact ⟨reg, hr, Nat.lt_of_not_le hv, .inl ⟨hc, h⟩⟩
      · rename_i hc
        exact ⟨reg, hr, Nat.lt_of_not_le hv, .inr ⟨hc, (Host.Outcome.next.inj h).symm⟩⟩

theorem runCommand_cases {c : Byte} {s t : State} (h : runCommand c s = .next t) :
    (∃ i, decode c = .ok i ∧ exec i s = .next t) ∨
    ((∃ e, decode c = .error e) ∧ t = s.complete .illegalCommand) := by
  unfold runCommand at h
  split at h
  · rename_i i hd
    exact .inl ⟨i, hd, h⟩
  · rename_i e hd
    exact .inr ⟨⟨e, hd⟩, (Host.Outcome.next.inj h).symm⟩

/-- Everything a step that answers a next state can have done. -/
theorem step_cases {s t : State} (h : step s = .next t) :
    (s.pending = [] ∧ t = s) ∨
    ∃ e rest u, s.pending = e :: rest ∧ u = { s with pending := rest } ∧
      ((∃ r reg, e = .read r ∧ regOf r = some reg ∧ t = u.giveHost (u.readReg reg)) ∨
       (∃ r v reg, e = .write r v ∧ regOf r = some reg ∧ v < 2 ^ reg.width ∧ reg ≠ .cmd ∧
          t = u.writeReg v reg) ∨
       (∃ r v i, e = .write r v ∧ regOf r = some .cmd ∧ decode (BitVec.ofNat 8 v) = .ok i ∧
          exec i u = .next t) ∨
       (∃ r v, e = .write r v ∧ regOf r = some .cmd ∧ t = u.complete .illegalCommand) ∨
       (∃ a, e = .readRas a ∧ a < u.rasterCap ∧ t = u.giveHost (u.memRead a).toNat) ∨
       (∃ a b, e = .writeRas a b ∧ a < u.rasterCap ∧ t = u.memWrite a b) ∨
       (e = .reset ∧ t = u.resetUnit)) := by
  cases hp : s.pending with
  | nil =>
    rw [step_nil hp] at h
    exact .inl ⟨rfl, (Host.Outcome.next.inj h).symm⟩
  | cons e rest =>
    rw [step_cons hp] at h
    refine .inr ⟨e, rest, _, rfl, rfl, ?_⟩
    cases e with
    | read r =>
      obtain ⟨reg, hr, rfl⟩ := hostRead_cases h
      exact .inl ⟨r, reg, rfl, hr, rfl⟩
    | write r v =>
      obtain ⟨reg, hr, hv, ⟨rfl, hc⟩ | ⟨hn, rfl⟩⟩ := hostWrite_cases h
      · obtain ⟨i, hd, hx⟩ | ⟨-, rfl⟩ := runCommand_cases hc
        · exact .inr (.inr (.inl ⟨r, v, i, rfl, hr, hd, hx⟩))
        · exact .inr (.inr (.inr (.inl ⟨r, v, rfl, hr, rfl⟩)))
      · exact .inr (.inl ⟨r, v, reg, rfl, hr, hv, hn, rfl⟩)
    | readRas a =>
      simp only [perform, hostReadRas] at h
      split at h
      · rename_i ha
        exact .inr (.inr (.inr (.inr (.inl ⟨a, rfl, ha, (Host.Outcome.next.inj h).symm⟩))))
      · cases h
    | writeRas a b =>
      simp only [perform, hostWriteRas] at h
      split at h
      · rename_i ha
        exact .inr (.inr (.inr (.inr (.inr (.inl ⟨a, b, rfl, ha, (Host.Outcome.next.inj h).symm⟩)))))
      · cases h
    | reset =>
      exact .inr (.inr (.inr (.inr (.inr (.inr ⟨rfl, (Host.Outcome.next.inj h).symm⟩)))))

end Sys2Proof.Machine
end

