-- ==== Sys2Proof/Laws/Codec.lean ====
section
/-! SUPPORT. Small laws of the codec and the sampler: characters, table lookup, slices, counts. -/

namespace Sys2Proof.Machine

/-! ### Characters and digits (R11) -/

@[simp] theorem digitChar_toNat (d : Digit) : (digitChar d).toNat = 0x30 + d.val := by
  have := d.isLt
  simp [digitChar]
  omega

theorem isDigitChar_digitChar (d : Digit) : isDigitChar (digitChar d) := by
  have := d.isLt
  constructor <;> simp <;> omega

@[simp] theorem digitVal_digitChar (d : Digit) : digitVal (digitChar d) = d := by
  have := d.isLt
  apply Fin.ext
  simp [digitVal]

theorem digitVal_val {c : Byte} (h : isDigitChar c) : (digitVal c).val = c.toNat - 0x30 := by
  have := h.2
  simp only [digitVal]
  omega

theorem digitChar_digitVal {c : Byte} (h : isDigitChar c) : digitChar (digitVal c) = c := by
  have h1 := h.1
  apply BitVec.eq_of_toNat_eq
  rw [digitChar_toNat, digitVal_val h]
  omega

/-! ### Table lookup (R94) -/

/-- Within one table no two digits have the same code (R82(d)). -/
theorem ltab_injective : ∀ d e : Digit, ltab[d] = ltab[e] → d = e := by decide

theorem rtab_injective : ∀ d e : Digit, rtab[d] = rtab[e] → d = e := by decide

theorem lookupCode_eq_some {table : Vector Code 10} {group : Code} {d : Digit}
    (hinj : ∀ d e : Digit, table[d] = table[e] → d = e) :
    lookupCode table group = some d ↔ table[d] = group := by
  unfold lookupCode
  constructor
  · intro h
    simpa using List.find?_some h
  · intro h
    cases hf : (List.finRange 10).find? fun d => decide (table[d] = group) with
    | none =>
      have := List.find?_eq_none.1 hf d (List.mem_finRange d)
      simp [h] at this
    | some e =>
      have he : table[e] = group := by simpa using List.find?_some hf
      rw [hinj e d (he.trans h.symm)]

theorem lookupCode_eq_none {table : Vector Code 10} {group : Code} :
    lookupCode table group = none ↔ ∀ d : Digit, table[d] ≠ group := by
  unfold lookupCode
  simp [List.find?_eq_none]

/-! ### Slices (R9) -/

@[simp] theorem slice_getElem (p : Vector Bit 67) (off len : Nat) (h : off + len ≤ 67) (j : Nat)
    (hj : j < len) : (slice p off len h)[j] = p[off + j] := by
  simp [slice]

theorem slice_eq_iff (p : Vector Bit 67) (off len : Nat) (h : off + len ≤ 67) (q : Vector Bit len) :
    slice p off len h = q ↔ ∀ j (hj : j < len), p[off + j] = q[j] := by
  constructor
  · rintro rfl j hj
    simp
  · intro hq
    apply Vector.ext
    intro j hj
    simpa using hq j hj

/-! ### Sampling (R120, R121) -/

theorem sample_eq_one {px : Nat → Nat → Bit} {row col mw : Nat} :
    sample px row col mw = 1 ↔ mw / 2 < blackCount px row col mw := by
  unfold sample
  split <;> simp_all

theorem blackCount_le (px : Nat → Nat → Bit) (row col mw : Nat) : blackCount px row col mw ≤ mw := by
  simpa [blackCount] using
    List.countP_le_length (l := List.range mw) (p := fun i => decide (px row (col + i) = 1))

/-- The count looks at the pixels of its run only. -/
theorem blackCount_congr {px px' : Nat → Nat → Bit} {row col mw : Nat}
    (h : ∀ i < mw, px row (col + i) = px' row (col + i)) :
    blackCount px row col mw = blackCount px' row col mw := by
  unfold blackCount
  refine List.countP_congr fun i hi => ?_
  rw [h i (List.mem_range.1 hi)]

theorem sample_congr {px px' : Nat → Nat → Bit} {row col mw : Nat}
    (h : ∀ i < mw, px row (col + i) = px' row (col + i)) :
    sample px row col mw = sample px' row col mw := by
  simp only [sample, blackCount_congr h]

@[simp] theorem extract_getElem (px : Nat → Nat → Bit) (row col mw k : Nat) (hk : k < 67) :
    (extract px row col mw)[k] = sample px row (col + k * mw) mw := by
  simp [extract]

/-! ### The search (R136, R137) -/

theorem candidateTest_eq_some {px : Nat → Nat → Bit} {c : Candidate} {d : Vector Digit 8} :
    candidateTest px c = some d ↔
      dec67 67 (extract px c.row c.col c.mw) = .ok d ∧ cksumOK d := by
  unfold candidateTest
  split <;> simp_all
  constructor
  · rintro ⟨hc, rfl⟩
    exact ⟨rfl, hc⟩
  · rintro ⟨rfl, hc⟩
    exact ⟨hc, rfl⟩

theorem locate_eq_none {px : Nat → Nat → Bit} {W H : Nat} :
    locate px W H = none ↔ ∀ c ∈ candidates W H, candidateTest px c = none := by
  simp [locate, List.findSome?_eq_none_iff]

/-- A found candidate stands in the list after candidates none of which matches. -/
theorem locate_eq_some {px : Nat → Nat → Bit} {W H : Nat} {d : Vector Digit 8} {c : Candidate} :
    locate px W H = some (d, c) ↔
      ∃ before after, candidates W H = before ++ c :: after ∧ candidateTest px c = some d ∧
        ∀ b ∈ before, candidateTest px b = none := by
  unfold locate
  rw [List.findSome?_eq_some_iff]
  constructor
  · rintro ⟨l, a, r, hl, ha, hb⟩
    cases ht : candidateTest px a with
    | none => simp [ht] at ha
    | some e =>
      simp only [ht, Option.map_some, Option.some.injEq, Prod.mk.injEq] at ha
      obtain ⟨rfl, rfl⟩ := ha
      exact ⟨l, r, hl, ht, fun b hbm => by simpa using hb b hbm⟩
  · rintro ⟨l, r, hl, ht, hb⟩
    exact ⟨l, c, r, hl, by simp [ht], fun b hbm => by simp [hb b hbm]⟩

end Sys2Proof.Machine
end

