-- ==== Sys2Proof/Laws/HostAccess.lean ====
section
/-! SUPPORT. What a host write to a register changes, and runs step by step. -/

namespace Sys2Proof.Machine

/-! ### A host write to a register (R38, R39) -/

@[simp] theorem writeReg_status (s : State) (v : Nat) (r : Reg) : (s.writeReg v r).status = s.status := by
  cases r <;> rfl

@[simp] theorem writeReg_ckd (s : State) (v : Nat) (r : Reg) : (s.writeReg v r).ckd = s.ckd := by
  cases r <;> rfl

@[simp] theorem writeReg_lmw (s : State) (v : Nat) (r : Reg) : (s.writeReg v r).lmw = s.lmw := by
  cases r <;> rfl

@[simp] theorem writeReg_lrow (s : State) (v : Nat) (r : Reg) : (s.writeReg v r).lrow = s.lrow := by
  cases r <;> rfl

@[simp] theorem writeReg_lcol (s : State) (v : Nat) (r : Reg) : (s.writeReg v r).lcol = s.lcol := by
  cases r <;> rfl

@[simp] theorem writeReg_ras (s : State) (v : Nat) (r : Reg) : (s.writeReg v r).ras = s.ras := by
  cases r <;> rfl

@[simp] theorem writeReg_rasterCap (s : State) (v : Nat) (r : Reg) :
    (s.writeReg v r).rasterCap = s.rasterCap := by
  cases r <;> rfl

@[simp] theorem writeReg_resets (s : State) (v : Nat) (r : Reg) : (s.writeReg v r).resets = s.resets := by
  cases r <;> rfl

@[simp] theorem writeReg_pending (s : State) (v : Nat) (r : Reg) :
    (s.writeReg v r).pending = s.pending := by
  cases r <;> rfl

@[simp] theorem writeReg_returned (s : State) (v : Nat) (r : Reg) :
    (s.writeReg v r).returned = s.returned := by
  cases r <;> rfl

/-- A writable register reads back the value stored in it, if the value fits. -/
theorem readReg_writeReg_same (s : State) {v : Nat} {r : Reg} (hc : r ≠ .cmd) (hw : r.readOnly = false)
    (hv : v < 2 ^ r.width) : (s.writeReg v r).readReg r = v := by
  cases r <;> simp [Reg.readOnly, Reg.width, Config.CW] at hw hv hc <;>
    simp [State.readReg, State.writeReg] <;> omega

/-- No other register changes. -/
theorem readReg_writeReg_ne (s : State) (v : Nat) {r r' : Reg} (h : r' ≠ r) :
    (s.writeReg v r).readReg r' = s.readReg r' := by
  cases r <;> cases r' <;> first | rfl | exact absurd rfl h | skip
  all_goals
    rename_i i j
    have : i.val ≠ j.val := fun e => h (by rw [Fin.ext e])
    simp [State.readReg, State.writeReg, this]

/-- The host's own lists are no register. -/
@[simp] theorem readReg_withLists (s : State) (p : List HostEvent) (l : List Nat) (r : Reg) :
    ({ s with pending := p, returned := l } : State).readReg r = s.readReg r := by
  cases r <;> rfl

@[simp] theorem readReg_memWrite (s : State) (a : Nat) (b : Bit) (r : Reg) :
    (s.memWrite a b).readReg r = s.readReg r := by
  cases r <;> rfl

/-! ### Runs -/

@[simp] theorem runSteps_zero (s : State) : runSteps 0 s = .next s := rfl

theorem runSteps_of_step {n : Nat} {s u : State} (h : step s = .next u) :
    runSteps (n + 1) s = runSteps n u := by
  have h' : Sys2Proof.core.step s = .next u := h
  simp only [runSteps, Host.Core.run, h']
  rfl

/-- A run that goes on for one more step begins with a step. -/
theorem runSteps_succ {n : Nat} {s t : State} (h : runSteps (n + 1) s = .next t) :
    ∃ u, step s = .next u ∧ runSteps n u = .next t := by
  simp only [runSteps, Host.Core.run] at h
  cases hs : step s with
  | next u =>
    rw [show Sys2Proof.core.step s = _ from hs] at h
    exact ⟨u, rfl, h⟩
  | fault r =>
    rw [show Sys2Proof.core.step s = _ from hs] at h
    cases h
  | refused r =>
    rw [show Sys2Proof.core.step s = _ from hs] at h
    cases h

end Sys2Proof.Machine
end

