-- ==== Sys2Proof/Laws/Patterns.lean ====
section
/-! SUPPORT. Bridges from the model's functions over patterns and pixel runs to the terms claims use. -/

namespace Sys2Proof.Machine

/-! ### Guards and groups -/

theorem guardsOK_iff (p : Vector Bit 67) : guardsOK p ↔ GuardsMatch p := by
  simp only [guardsOK, GuardsMatch, slice_eq_iff]
  constructor
  · rintro ⟨h1, h2, h3⟩
    exact ⟨h1 0 (by decide), h1 1 (by decide), h1 2 (by decide), h2 0 (by decide), h2 1 (by decide),
      h2 2 (by decide), h2 3 (by decide), h2 4 (by decide), h3 0 (by decide), h3 1 (by decide),
      h3 2 (by decide)⟩
  · rintro ⟨_, _, _, _, _, _, _, _, _, _, _⟩
    refine ⟨?_, ?_, ?_⟩ <;> (intro j hj; interval_cases j <;> assumption)

theorem leftGroupIs_iff (p : Vector Bit 67) (g : Fin 4) (c : Code) :
    LeftGroupIs p g c ↔ slice p (3 + 7 * g.val) 7 (by omega) = c := by
  rw [slice_eq_iff]
  exact ⟨fun h j hj => h ⟨j, hj⟩, fun h j => h j.val j.isLt⟩

theorem rightGroupIs_iff (p : Vector Bit 67) (g : Fin 4) (c : Code) :
    RightGroupIs p g c ↔ slice p (36 + 7 * g.val) 7 (by omega) = c := by
  rw [slice_eq_iff]
  exact ⟨fun h j hj => h ⟨j, hj⟩, fun h j => h j.val j.isLt⟩

/-- An encoded pattern as one list of elements, from which any element is read off. -/
theorem enc67_toList (d : Vector Digit 8) :
    (enc67 d).toList = sideGuard.toList ++ ltab[d[0]].toList ++ ltab[d[1]].toList ++ ltab[d[2]].toList
      ++ ltab[d[3]].toList ++ centreGuard.toList ++ rtab[d[4]].toList ++ rtab[d[5]].toList
      ++ rtab[d[6]].toList ++ rtab[d[7]].toList ++ sideGuard.toList := by
  simp only [enc67, ← Vector.toList_append]

/-- The identifier a command writes is well formed, and its digits are those given. -/
theorem setIdentifier_wellFormed (s : State) (d : Vector Digit 8) :
    wellFormedId (s.setIdentifier d).idlen (s.setIdentifier d).idbuf ∧
      digits (s.setIdentifier d).idbuf = d := by
  refine ⟨⟨rfl, fun i => ?_⟩, ?_⟩
  · simp only [setIdentifier_idbuf, Fin.getElem_fin, Vector.getElem_ofFn]
    exact isDigitChar_digitChar _
  · apply Vector.ext
    intro i hi
    simp [digits]

/-! ### Counts of black pixels -/

theorem majorityBlack_iff (px : Nat → Nat → Bit) (row col mw : Nat) :
    MajorityBlack px row col mw ↔ mw / 2 < blackCount px row col mw := by
  have : ((Finset.range mw).filter fun i => px row (col + i) = 1).card
      = (List.range mw).countP fun i => decide (px row (col + i) = 1) := by
    rw [List.countP_eq_length_filter]
    rfl
  rw [MajorityBlack, blackCount, this]

/-- The count over a run that is one colour up to `j` and one colour from there on. -/
theorem blackCount_split {w j : Nat} {a b : Bit} {px : Nat → Nat → Bit} {row col : Nat} (hj : j ≤ w)
    (h : ∀ i < w, px row (col + i) = if i < j then a else b) :
    blackCount px row col w = (if a = 1 then j else 0) + if b = 1 then w - j else 0 := by
  have hc : blackCount px row col w
      = (List.range w).countP fun i => decide ((if i < j then a else b) = 1) := by
    refine List.countP_congr fun i hi => ?_
    rw [h i (List.mem_range.1 hi)]
  obtain ⟨r, rfl⟩ := Nat.exists_eq_add_of_le hj
  have left : (List.range j).countP (fun i => decide ((if i < j then a else b) = 1))
      = if a = 1 then j else 0 := by
    rw [List.countP_congr (q := fun _ => decide (a = 1))]
    · split <;> simp_all
    · intro x hx
      simp [List.mem_range.1 hx]
  have right : (List.range r).countP
      ((fun i => decide ((if i < j then a else b) = 1)) ∘ fun x => j + x) = if b = 1 then r else 0 := by
    rw [List.countP_congr (q := fun _ => decide (b = 1))]
    · split <;> simp_all
    · intro x _
      simp
  rw [hc, List.range_add, List.countP_append, List.countP_map, left, right]
  simp

/-- If every black pixel of a run lies below `k`, at most `k` are black. -/
theorem blackCount_le_of_black_lt {px : Nat → Nat → Bit} {row col mw k : Nat} (hk : k ≤ mw)
    (h : ∀ i < mw, px row (col + i) = 1 → i < k) : blackCount px row col mw ≤ k := by
  have hs := blackCount_split (px := fun _ c => if c < k then 1 else 0) (row := 0) (col := 0)
    (a := 1) (b := 0) hk (by intro i _; simp)
  simp at hs
  rw [← hs]
  refine List.countP_mono_left fun i hi hp => ?_
  have := h i (List.mem_range.1 hi) (by simpa using hp)
  simp [this]

/-- If every black pixel of a run lies at `k` or above, at most `mw - k` are black. -/
theorem blackCount_le_of_black_ge {px : Nat → Nat → Bit} {row col mw k : Nat} (hk : k ≤ mw)
    (h : ∀ i < mw, px row (col + i) = 1 → k ≤ i) : blackCount px row col mw ≤ mw - k := by
  have hs := blackCount_split (px := fun _ c => if c < k then 0 else 1) (row := 0) (col := 0)
    (a := 0) (b := 1) hk (by intro i _; simp)
  simp at hs
  rw [← hs]
  refine List.countP_mono_left fun i hi hp => ?_
  have := h i (List.mem_range.1 hi) (by simpa using hp)
  simp
  omega

end Sys2Proof.Machine
end

