-- ==== Sys2Proof/Laws/Raster.lean ====
section
/-! SUPPORT. A raster listed cell by cell: what its cells hold, and that a state whose cells are the pixels
of `render` shows the rendered raster. -/

namespace Sys2Proof.Machine

/-- The cells `a`, `a + 1`, ... with the given bits, in canonical form. -/
def cellsOf (a : Nat) (bits : List Bit) : Memory := (bits.zipIdx a).map fun x => (x.2, x.1)

theorem lookup_cellsOf (bits : List Bit) (a k : Nat) :
    Memory.lookup (cellsOf a bits) (a + k) = bits[k]? := by
  induction bits generalizing a k with
  | nil => rfl
  | cons b rest ih =>
    cases k with
    | zero => simp [cellsOf, Memory.lookup]
    | succ k =>
      have : Memory.lookup (cellsOf (a + 1) rest) (a + (k + 1)) = rest[k]? := by
        rw [show a + (k + 1) = a + 1 + k by omega]
        exact ih (a + 1) k
      simpa [cellsOf, Memory.lookup] using this

/-- Rows of `width` elements joined: element `col` of row `row` stands at `row * width + col`. -/
theorem flatMap_rows_getElem? {α β : Type} {width : Nat} (rows : List α) (f : α → List β)
    (hf : ∀ r, (f r).length = width) {row col : Nat} (hrow : row < rows.length) (hcol : col < width) :
    (rows.flatMap f)[row * width + col]? = (f rows[row])[col]? := by
  induction rows generalizing row with
  | nil => simp at hrow
  | cons r rest ih =>
    rw [List.flatMap_cons]
    cases row with
    | zero =>
      rw [List.getElem?_append_left (by rw [hf]; omega)]
      simp
    | succ row =>
      have hlen : (row + 1) * width + col = row * width + col + width := by ring
      rw [List.getElem?_append_right (by rw [hf]; omega), hf, hlen, Nat.add_sub_cancel]
      exact ih (by simpa using hrow)

/-- The pixels of a raster, read row by row (R52). -/
theorem rasterPixels_getElem? {width height row col : Nat} (px : Nat → Nat → Bit) (hrow : row < height)
    (hcol : col < width) :
    (rasterPixels width height px)[row * width + col]? = some (px row col) := by
  unfold rasterPixels
  rw [flatMap_rows_getElem? (width := width) _ _ (by simp) (by simpa using hrow) hcol]
  simp [hcol]

/-- A state presenting `render(d, w, m, h, VM)`. -/
def State.showing (s : State) (d : Vector Digit 8) (w m h vm : Nat) : State :=
  { s with
    w := BitVec.ofNat 16 (renderWidth w m)
    h := BitVec.ofNat 16 (renderHeight h vm)
    ras := cellsOf 0 (rasterPixels (renderWidth w m) (renderHeight h vm) (renderPixel (enc67 d) w m h vm)) }

/-- It shows it, if the width and the height fit their registers. -/
theorem showing_shows (s : State) (d : Vector Digit 8) {w m h vm : Nat} (hw : renderWidth w m < 2 ^ 16)
    (hh : renderHeight h vm < 2 ^ 16) : ShowsRendered (s.showing d w m h vm) d w m h vm := by
  have ew : (s.showing d w m h vm).w.toNat = renderWidth w m := by
    simpa [State.showing] using Nat.mod_eq_of_lt hw
  have eh : (s.showing d w m h vm).h.toNat = renderHeight h vm := by
    simpa [State.showing] using Nat.mod_eq_of_lt hh
  refine ⟨ew, eh, fun row col hrow hcol => ?_⟩
  rw [eh] at hrow
  rw [ew] at hcol
  have hl := lookup_cellsOf (rasterPixels (renderWidth w m) (renderHeight h vm)
    (renderPixel (enc67 d) w m h vm)) 0 (row * renderWidth w m + col)
  rw [Nat.zero_add, rasterPixels_getElem? _ hrow hcol] at hl
  rw [State.pixel, ew, State.memRead]
  show (Memory.lookup (cellsOf 0 _) _).getD _ = _
  rw [hl]
  rfl

end Sys2Proof.Machine
end

