-- ==== Sys2Proof/Machine/Assembler.lean ====
section
/-! DEFINITION. The text of a command program (R75, R76): one statement a line, `;` starts a comment,
numbers decimal or `0x` hexadecimal, mnemonics and register names in either case. Host software; the
points R75 leaves open are log entry 12. -/

namespace Sys2Proof.Machine

/-- A token of a line: a word, or what stands between two double quotes. -/
inductive Token where
  | word (cs : List Char)
  | quoted (cs : List Char)
  deriving DecidableEq, Repr

/-- Put the word read so far, if any, before the tokens that follow. -/
def pushWord (cur : List Char) (rest : List Token) : List Token :=
  if cur.isEmpty then rest else .word cur.reverse :: rest

/-- The tokens of a line; `cur` is the word being read, latest character first, and `q` holds the quoted
text being read. Blanks and commas separate; `;` ends the line outside quotes. -/
def tokenize : List Char → List Char → Option (List Char) → Option (List Token)
  | [], cur, none => some (pushWord cur [])
  | [], _, some _ => none
  | c :: rest, cur, some q =>
    if c = '"' then (tokenize rest cur none).map (.quoted q.reverse :: ·)
    else tokenize rest cur (some (c :: q))
  | c :: rest, cur, none =>
    if c = ';' then some (pushWord cur [])
    else if c = '"' then (tokenize rest [] (some [])).map (pushWord cur)
    else if c = ' ' ∨ c = '\t' ∨ c = '\r' ∨ c = ',' then (tokenize rest [] none).map (pushWord cur)
    else tokenize rest (c :: cur) none

/-- The value of a digit in a base up to 16. -/
def charDigit (base : Nat) (c : Char) : Option Nat :=
  let n := c.toNat
  let v :=
    if 48 ≤ n ∧ n ≤ 57 then some (n - 48)
    else if 97 ≤ n ∧ n ≤ 102 then some (n - 87)
    else none
  v.filter (· < base)

/-- A numeral's value, digit by digit from the left. -/
def numeral (base : Nat) : List Char → Nat → Option Nat
  | [], acc => some acc
  | c :: rest, acc => (charDigit base c).bind fun d => numeral base rest (acc * base + d)

/-- A number of R75, in lower case. -/
def number? : List Char → Option Nat
  | [] => none
  | ['0', 'x'] => none
  | '0' :: 'x' :: ds => numeral 16 ds 0
  | ds => numeral 10 ds 0

/-- The register named by a word in lower case: the names of R22, `IDBUFi` and `PATk` (R75). -/
def regNamed (w : List Char) : Option Reg :=
  if w = "cmd".toList then some .cmd
  else if w = "status".toList then some .status
  else if w = "ckd".toList then some .ckd
  else if w = "idlen".toList then some .idlen
  else if w = "patlen".toList then some .patlen
  else if w = "w".toList then some .w
  else if w = "h".toList then some .h
  else if w = "row".toList then some .row
  else if w = "col".toList then some .col
  else if w = "mw".toList then some .mw
  else if w = "lmw".toList then some .lmw
  else if w = "lrow".toList then some .lrow
  else if w = "lcol".toList then some .lcol
  else if w.take 5 = "idbuf".toList ∧ w.length ≠ 5 then
    (numeral 10 (w.drop 5) 0).bind fun i => if h : i < 8 then some (.idbuf ⟨i, h⟩) else none
  else if w.take 3 = "pat".toList ∧ w.length ≠ 3 then
    (numeral 10 (w.drop 3) 0).bind fun k => if h : k < 67 then some (.pat ⟨k, h⟩) else none
  else none

/-- The command a mnemonic in lower case names (R71, R75). -/
def commandNamed (w : List Char) : Option Instr :=
  if w = "chk".toList then some .chk
  else if w = "val".toList then some .val
  else if w = "enc".toList then some .enc
  else if w = "dec".toList then some .dec
  else if w = "smp".toList then some .smp
  else if w = "ext".toList then some .ext
  else if w = "loc".toList then some .loc
  else none

/-- A bit string of R9 from its text. -/
def bitString : List Char → Option (List Bit)
  | [] => some []
  | '0' :: rest => (bitString rest).map (0 :: ·)
  | '1' :: rest => (bitString rest).map (1 :: ·)
  | _ :: _ => none

/-- The 8-bit codes of a string's characters (R76); none if a character has no 8-bit code. -/
def charCodes : List Char → Option (List Byte)
  | [] => some []
  | c :: rest =>
    if c.toNat < 256 then (charCodes rest).map (BitVec.ofNat 8 c.toNat :: ·) else none

/-- The rows of a `ras` statement, each of `w` elements (R76). -/
def rasRows (w : Nat) : List Token → Option (List (List Bit))
  | [] => some []
  | .word _ :: _ => none
  | .quoted cs :: rest =>
    (bitString cs).bind fun r =>
      if r.length = w then (rasRows w rest).map (r :: ·) else none

/-- A one-bit operand. -/
def bitOperand (w : List Char) : Option Bit :=
  (number? w).bind fun n => if n < 2 then some (BitVec.ofNat 1 n) else none

/-- A statement from the lower-case mnemonic `m` and its operand tokens, words in lower case. -/
def stmtOf (m : List Char) (args : List Token) : Option Stmt :=
  match commandNamed m, args with
  | some i, [] => some (.command i)
  | some i, [.word r, .word c, .word w] => do
    let r ← number? r
    let c ← number? c
    let w ← number? w
    if i = .smp then some (.smpAt r c w) else if i = .ext then some (.extAt r c w) else none
  | some _, _ => none
  | none, [.word a] =>
    if m = "cmd".toList then (number? a).map .cmd
    else if m = "rd".toList then (regNamed a).map .rd
    else if m = "rdr".toList then (number? a).map .rdr
    else none
  | none, [.quoted cs] =>
    if m = "wrid".toList then
      (charCodes cs).bind fun s => if s.length ≤ 255 then some (.wrid s) else none
    else if m = "wrpat".toList then
      (bitString cs).bind fun b => if b.length ≤ 255 then some (.wrpat b) else none
    else none
  | none, .word a :: .word b :: rows =>
    if m = "ras".toList then do
      let w ← number? a
      let h ← number? b
      let rs ← rasRows w rows
      if rs.length = h then some (.ras w h rs) else none
    else if ¬ rows.isEmpty then none
    else if m = "wr".toList then (regNamed a).bind fun r => (number? b).map (.wr r)
    else if m = "wrr".toList then (number? a).bind fun n => (bitOperand b).map (.wrr n)
    else none
  | none, _ => none

/-- A word in lower case (R75: names are case-insensitive); quoted text is kept. -/
def Token.lower : Token → Token
  | .word cs => .word (cs.map Char.toLower)
  | .quoted cs => .quoted cs

/-- The statement of a line; an empty line has none. -/
def parseLine (line : List Char) : Option (Option Stmt) :=
  (tokenize line [] none).bind fun ts =>
    match ts.map Token.lower with
    | [] => some none
    | .word m :: args => (stmtOf m args).map some
    | .quoted _ :: _ => none

/-- The lines of a text; `cur` is the line being read, latest character first. -/
def linesOf : List Char → List Char → List (List Char)
  | [], cur => [cur.reverse]
  | c :: rest, cur => if c = '\n' then cur.reverse :: linesOf rest [] else linesOf rest (c :: cur)

/-- The statements of lines in order; none if some line is no statement. -/
def parseLines : List (List Char) → Option (List Stmt)
  | [] => some []
  | l :: rest =>
    (parseLine l).bind fun s => (parseLines rest).map fun p => s.toList ++ p

/-- The command program a text stands for (R75). -/
def parseProgram (text : List Char) : Option (List Stmt) := parseLines (linesOf text [])

end Sys2Proof.Machine
end

