-- ==== Sys2Proof/Tests/Slice0.lean ====
section
/-! SUPPORT. The model's own tests: command words written out bit by bit, ill-formed terms, single steps
with the results of spec/95_test_vectors.md, and a witness for the hypotheses of every obligation. -/

namespace Sys2Proof.Tests

open Sys2Proof Sys2Proof.Machine

/-! ### Small states -/

/-- The state an outcome goes on to. -/
def next? : Host.Outcome State Fault Refusal → Option State
  | .next t => some t
  | .fault _ => none
  | .refused _ => none

/-- Why an outcome is refused. -/
def refusal? : Host.Outcome State Fault Refusal → Option Refusal
  | .next _ => none
  | .fault _ => none
  | .refused r => some r

/-- Bits written as a text of 0s and 1s. -/
def bits (text : String) : List Bit := text.toList.map fun c => if c = '1' then 1 else 0

/-- A pattern written as a text. -/
def pattern (text : String) : Vector Bit 67 := Vector.ofFn fun k : Fin 67 => (bits text).getD k.val 0

/-- The state after reset of a unit with 1000 raster cells. -/
def blank : State := { State.reset with rasterCap := 1000 }

/-- The characters of a text are presented, as `wrid` does. -/
def withId (text : String) : State :=
  { blank with
    idlen := BitVec.ofNat 8 text.toList.length
    idbuf := Vector.ofFn fun i : Fin 8 =>
      match text.toList[i.val]? with
      | some c => BitVec.ofNat 8 c.toNat
      | none => 0 }

/-- A pattern is presented, as `wrpat` does. -/
def withPattern (text : String) : State :=
  { blank with patlen := BitVec.ofNat 8 text.toList.length, pat := pattern text }

/-- A raster of the given width is presented, its rows written one after the other. -/
def withRaster (width height : Nat) (text : String) : State :=
  { blank with
    w := BitVec.ofNat 16 width
    h := BitVec.ofNat 16 height
    ras := cellsOf 0 (bits text) }

/-- The sampler's operands. -/
def State.at (s : State) (row col mw : Nat) : State :=
  { s with row := BitVec.ofNat 16 row, col := BitVec.ofNat 16 col, mw := BitVec.ofNat 16 mw }

/-- V-ENC-1, the pattern of 40078175. -/
def patE : String := "1010100011000110100011010111011010101001000110011010001001001110101"

/-- The digits 4 0 0 7 8 1 7 5. -/
def idE : Vector Digit 8 := #v[4, 0, 0, 7, 8, 1, 7, 5]

/-! ### Decoding: words written out bit by bit (R70, R71, R73) -/

theorem test_decode_chk : decode 0b00000001#8 = .ok .chk := by decide
theorem test_decode_val : decode 0b00000010#8 = .ok .val := by decide
theorem test_decode_enc : decode 0b00000011#8 = .ok .enc := by decide
theorem test_decode_dec : decode 0b00000100#8 = .ok .dec := by decide
theorem test_decode_smp : decode 0b00000101#8 = .ok .smp := by decide
theorem test_decode_ext : decode 0b00000110#8 = .ok .ext := by decide
theorem test_decode_loc : decode 0b00000111#8 = .ok .loc := by decide

/-- The reserved words of V-ILL-1 and V-ILL-2, each rejected by name. -/
theorem test_decode_reserved :
    decode 0b00000000#8 = .error .reservedOpcode ∧ decode 0b00001000#8 = .error .reservedOpcode ∧
    decode 0b00001111#8 = .error .reservedOpcode ∧ decode 0b00010001#8 = .error .zeroFieldNotZero ∧
    decode 0b10000001#8 = .error .zeroFieldNotZero ∧
    decode 0b11111111#8 = .error .zeroFieldNotZero := by decide

theorem test_decodeTableWord :
    decodeTableWord 8 0x07 = some .loc ∧ decodeTableWord 8 0x08 = none ∧
    decodeTableWord 16 0x0107 = none := by decide

/-! ### Well-formedness: an ill-formed term for each check -/

theorem test_wellFormed_good :
    HostEvent.wellFormed 1000 (.write 0x82 1) = true ∧ HostEvent.wellFormed 1000 (.read 0x01) = true ∧
    HostEvent.wellFormed 1000 (.writeRas 999 1) = true ∧ Config.wellFormed 7 1 = true := by decide

theorem test_wellFormed_unmapped_read : HostEvent.wellFormed 1000 (.read 0x0D) = false := by decide
theorem test_wellFormed_unmapped_write : HostEvent.wellFormed 1000 (.write 0x83 0) = false := by decide
theorem test_wellFormed_wide_value : HostEvent.wellFormed 1000 (.write 0x40 2) = false := by decide
theorem test_wellFormed_wide_coordinate : HostEvent.wellFormed 1000 (.write 0x05 65536) = false := by decide
theorem test_wellFormed_read_cell : HostEvent.wellFormed 1000 (.readRas 1000) = false := by decide
theorem test_wellFormed_write_cell : HostEvent.wellFormed 1000 (.writeRas 1000 0) = false := by decide
theorem test_wellFormed_narrow_CW : Config.wellFormed 6 1 = false := by decide
theorem test_wellFormed_no_cells : Config.wellFormed 16 0 = false := by decide

/-! ### Code tables (R80, R81): the codes as 7-bit numbers, written out from the spec's strings -/

/-- The value of a code, offset 0 most significant (R9). -/
def codeVal (c : Code) : Nat := c.toList.foldl (fun n b => 2 * n + b.toNat) 0

theorem test_ltab : ltab.toList.map codeVal =
    [0b0001101, 0b0011001, 0b0010011, 0b0111101, 0b0100011, 0b0110001, 0b0101111, 0b0111011,
      0b0110111, 0b0001011] := by decide

theorem test_rtab : rtab.toList.map codeVal =
    [0b1110010, 0b1100110, 0b1101100, 0b1000010, 0b1011100, 0b1001110, 0b1010000, 0b1000100,
      0b1001000, 0b1110100] := by decide

/-! ### Commands: one step each -/

/-- V-CHK-4, and V-CHK-2, where a sum that is a multiple of 10 gives 0. -/
theorem test_chk :
    ((next? (exec .chk (withId "9999999"))).map fun t => (t.ckd, t.status.code)) = some (5, .ok) ∧
    ((next? (exec .chk (withId "1234567"))).map fun t => (t.ckd, t.status.code)) = some (0, .ok) := by
  decide

/-- V-CHK-12: the character just above '9'. -/
theorem test_chk_not_a_digit :
    ((next? (exec .chk (withId "400781:"))).map fun t => (t.ckd, t.status.code))
      = some (0, .identifierFormatError) := by decide

/-- V-VAL-3. -/
theorem test_val_wrong_checksum :
    ((next? (exec .val (withId "12345678"))).map fun t => t.status.word) = some 0x02 := by decide

/-- V-VAL-1 and V-VAL-9: form is judged before the checksum. -/
theorem test_val :
    ((next? (exec .val (withId "40078175"))).map fun t => t.status.word) = some 0x10 ∧
    ((next? (exec .val (withId "4007817X"))).map fun t => t.status.word) = some 0x01 := by decide

/-- V-ENC-3: a checksum-invalid identifier is encoded. -/
theorem test_enc :
    ((next? (exec .enc (withId "12345678"))).map fun t => (t.pat, t.patlen, t.status.code))
      = some (pattern "1010011001001001101111010100011010101001110101000010001001001000101", 67, .ok) := by
  decide

/-- V-ENC-7. -/
theorem test_enc_not_a_digit :
    ((next? (exec .enc (withId "4007 175"))).map fun t => (t.patlen, t.status.code))
      = some (0, .identifierFormatError) := by decide

/-- V-DEC-1 on V-ENC-1. -/
theorem test_dec :
    ((next? (exec .dec (withPattern patE))).map fun t => (t.idbuf, t.idlen, t.status.code))
      = some ((withId "40078175").idbuf, 8, .ok) := by decide

/-- V-DEC-7 and V-DEC-10: swapped tables, and no guards. -/
theorem test_dec_rejects :
    ((next? (exec .dec (withPattern
        "1011011100111001011100101000100010100110111001100101110110110001101"))).map
      fun t => t.status.code) = some .unknownSymbolError ∧
    ((next? (exec .dec { withPattern "" with patlen := 67 })).map fun t => t.status.code)
      = some .structureError := by decide

/-- V-SMP-1 and V-SMP-2: the source's two examples. -/
theorem test_smp :
    ((next? (exec .smp (State.at (withRaster 3 1 "110") 0 0 3))).map fun t => t.status.word)
      = some 0x20 ∧
    ((next? (exec .smp (State.at (withRaster 4 1 "1100") 0 0 4))).map fun t => t.status.word)
      = some 0x00 := by decide

/-- V-SMP-12: one column too far. -/
theorem test_smp_out_of_range :
    ((next? (exec .smp (State.at (withRaster 4 1 "1100") 0 3 2))).map fun t => t.status.word)
      = some 0x86 := by decide

/-- At module width 1 each sample is its pixel (R121), here one column from the left edge. -/
theorem test_ext :
    ((next? (exec .ext (State.at (withRaster 68 1 ("0" ++ patE)) 0 1 1))).map
      fun t => (t.pat, t.patlen, t.status.code)) = some (pattern patE, 67, .ok) := by decide

/-- One column further the 67 modules do not fit. -/
theorem test_ext_out_of_range :
    ((next? (exec .ext (State.at (withRaster 68 1 ("0" ++ patE)) 0 2 1))).map fun t => t.status.word)
      = some 0x86 := by decide

/-- V-LOC-1 shape: the symbol alone at module width 1, found at the first candidate. -/
theorem test_loc :
    ((next? (exec .loc (withRaster 67 1 patE))).map
      fun t => (t.idbuf, t.idlen, t.lmw, t.lrow, t.lcol, t.status.code))
      = some ((withId "40078175").idbuf, 8, 1, 0, 0, .ok) := by decide

/-- V-LOC-9: 67 by 1, all zeros. -/
theorem test_loc_finds_nothing :
    ((next? (exec .loc { withRaster 67 1 "" with ras := (List.range 67).map fun a => (a, 0) })).map
      fun t => t.status.word) = some 0x05 := by decide

/-! ### Steps -/

/-- V-ILL-1. -/
theorem test_step_reserved :
    ((next? (step (blank.withFetchWord 8 0x00))).map fun t => t.status.word) = some 0x87 := by decide

/-- V-RST-5 through a step, straight after reset. -/
theorem test_step_loc :
    ((next? (step (blank.withFetchWord 8 0x07))).map fun t => t.status.word) = some 0x05 := by decide

/-- V-HST-1: `STATUS` is read-only; a number with no register is refused by name. -/
theorem test_step_host :
    ((next? (step { blank with pending := [.write 0x01 0xFF] })).map fun t => t.status.word)
      = some 0x00 ∧
    refusal? (step { blank with pending := [.read 0x0D] }) = some (.unmappedRegister 0x0D) := by decide

/-! ### Command programs (R75, R76) -/

/-- Statement 1 of P1 as the accesses the spec lists for it. -/
theorem test_wrid_expands :
    (Stmt.wrid [0x34, 0x30, 0x30, 0x37, 0x38, 0x31, 0x37]).expand =
      [.write 0x10 0x34, .write 0x11 0x30, .write 0x12 0x30, .write 0x13 0x37, .write 0x14 0x38,
        .write 0x15 0x31, .write 0x16 0x37, .write 0x03 7] := by decide

/-- Statement 4 of P3 as the accesses the spec lists for it. -/
theorem test_ext_at_expands :
    (Stmt.extAt 0 4 2).expand =
      [.write 0x07 0, .write 0x08 4, .write 0x09 2, .write 0x00 0x06] := by decide

theorem test_parse_program :
    parseProgram "WR IDBUF7, 0x35 ; the check digit\n\nval\nrd ckd".toList
      = some [.wr (.idbuf 7) 0x35, .command .val, .rd .ckd] := by decide

theorem test_parse_rejects_unknown_mnemonic : parseProgram "frob 3".toList = none := by decide

/-! ### Witnesses: the hypotheses of each obligation can be met -/

theorem witness_StepRunsDecodedCommand :
    ({ blank with pending := [.write 0x00 7] } : State).pending = .write 0x00 7 :: [] ∧ 7 < 256 ∧
      decode (BitVec.ofNat 8 7) = .ok .loc := by decide

theorem witness_ReservedWordIsIllegalCommand :
    (0 < 256 ∧ (0 = 0 ∨ 8 ≤ 0)) ∧ (8 < 256 ∧ (8 = 0 ∨ 8 ≤ 8)) ∧ 255 < 256 ∧ (255 = 0 ∨ 8 ≤ 255) ∧
      ({ blank with pending := [.write 0x00 8] } : State).pending = .write 0x00 8 :: [] := by decide

theorem witness_IdleUnitStays : blank.pending = [] := rfl

/-- Both clauses, at the first and last digit characters and just outside them. -/
theorem witness_ChkWritesTheCheckDigit :
    wellFormedPrefix (withId "0909090").idlen (withId "0909090").idbuf ∧
    ¬ wellFormedPrefix (withId "090909").idlen (withId "090909").idbuf ∧
    ¬ wellFormedPrefix (withId "090909/").idlen (withId "090909/").idbuf ∧
    ¬ wellFormedPrefix (withId "090909:").idlen (withId "090909:").idbuf := by decide

/-- V-CHK-9 beside an identifier with another eighth character. -/
theorem witness_ChkDependsOnThePrefixOnly :
    (withId "40078170").idlen = (withId "40078175").idlen ∧
    (∀ i : Fin 7, (withId "40078170").idbuf[i.val]'(by omega)
      = (withId "40078175").idbuf[i.val]'(by omega)) ∧
    (next? (exec .chk (withId "40078170"))).isSome ∧
    (next? (exec .chk (withId "40078175"))).isSome := by decide

/-- The three clauses: lengths 7 and 9, a wrong check digit, a right one. -/
theorem witness_ValJudgesFormThenChecksum :
    ¬ wellFormedId (withId "4007817").idlen (withId "4007817").idbuf ∧
    ¬ wellFormedId (withId "400781759").idlen (withId "400781759").idbuf ∧
    (wellFormedId (withId "12345678").idlen (withId "12345678").idbuf ∧
      (charSum (withId "12345678").idbuf + ((withId "12345678").idbuf[7].toNat - 0x30)) % 10 ≠ 0) ∧
    wellFormedId (withId "99999995").idlen (withId "99999995").idbuf ∧
      (charSum (withId "99999995").idbuf + ((withId "99999995").idbuf[7].toNat - 0x30)) % 10 = 0 := by
  decide

theorem witness_CheckDigitCompletesAnIdentifier :
    wellFormedPrefix (withId "4007817").idlen (withId "4007817").idbuf ∧
      (next? (exec .chk (withId "4007817"))).isSome := by decide

theorem witness_EncWritesTheEncodedPattern :
    wellFormedId (withId "00000000").idlen (withId "00000000").idbuf ∧
      ¬ wellFormedId (withId "4007817").idlen (withId "4007817").idbuf := by decide

/-- First clause: lengths 66 and 68, and 67 without the end guard. -/
theorem witness_DecJudgesStructureThenGroups_structure :
    (withPattern (patE ++ "1")).patlen.toNat ≠ 67 ∧
    ({ withPattern patE with patlen := 66 } : State).patlen.toNat ≠ 67 ∧
    ¬ GuardsMatch (pattern
      "1010100011000110100011010111011010101001000110011010001001001110111") := by
  unfold GuardsMatch; decide

/-- Second clause: V-DEC-6 on the left, V-DEC-8 on the right. -/
theorem witness_DecJudgesStructureThenGroups_symbol :
    ((withPattern patE).patlen.toNat = 67 ∧
      GuardsMatch (pattern "1011100011000110100011010111011010101001000110011010001001001110101") ∧
      ∀ d : Digit, ¬ LeftGroupIs
        (pattern "1011100011000110100011010111011010101001000110011010001001001110101") 0 ltab[d]) ∧
    GuardsMatch (pattern "1010100011000110100011010111011010101001000110011010001001001111101") ∧
      ∀ d : Digit, ¬ RightGroupIs
        (pattern "1010100011000110100011010111011010101001000110011010001001001111101") 3 rtab[d] := by
  unfold GuardsMatch LeftGroupIs RightGroupIs; decide

/-- Third clause: V-ENC-1. -/
theorem witness_DecJudgesStructureThenGroups_ok :
    (withPattern patE).patlen.toNat = 67 ∧ GuardsMatch (withPattern patE).pat ∧
    LeftGroupIs (withPattern patE).pat 0 ltab[idE[0]] ∧
    LeftGroupIs (withPattern patE).pat 1 ltab[idE[1]] ∧
    LeftGroupIs (withPattern patE).pat 2 ltab[idE[2]] ∧
    LeftGroupIs (withPattern patE).pat 3 ltab[idE[3]] ∧
    RightGroupIs (withPattern patE).pat 0 rtab[idE[4]] ∧
    RightGroupIs (withPattern patE).pat 1 rtab[idE[5]] ∧
    RightGroupIs (withPattern patE).pat 2 rtab[idE[6]] ∧
    RightGroupIs (withPattern patE).pat 3 rtab[idE[7]] := by
  unfold GuardsMatch LeftGroupIs RightGroupIs; decide

/-- V-DEC-7, whose groups are codes of the other table on both sides. -/
def swappedP : State :=
  withPattern "1011011100111001011100101000100010100110111001100101110110110001101"

theorem witness_SwappedTableCodesAreRejected :
    swappedP.patlen.toNat = 67 ∧ GuardsMatch swappedP.pat ∧
    LeftGroupIs swappedP.pat 0 rtab[(4 : Digit)] ∧ RightGroupIs swappedP.pat 3 ltab[(5 : Digit)] := by
  unfold GuardsMatch LeftGroupIs RightGroupIs; decide

theorem witness_EncThenDecRestoresTheIdentifier :
    wellFormedId (withId "12345678").idlen (withId "12345678").idbuf := by decide

theorem witness_ValAfterDecJudgesOnlyTheChecksum :
    ((next? (exec .dec (withPattern patE))).map fun t => t.status.code) = some .ok := by decide

/-- The last run of the last row of a raster that fills the capacity. -/
theorem witness_SmpWritesTheMajorityOfItsRun :
    1 ≤ (State.at (withRaster 100 10 "") 9 97 3).mw.toNat ∧
    (State.at (withRaster 100 10 "") 9 97 3).row.toNat
      < (State.at (withRaster 100 10 "") 9 97 3).h.toNat ∧
    (State.at (withRaster 100 10 "") 9 97 3).col.toNat
      + (State.at (withRaster 100 10 "") 9 97 3).mw.toNat
      ≤ (State.at (withRaster 100 10 "") 9 97 3).w.toNat ∧
    (State.at (withRaster 100 10 "") 9 97 3).w.toNat
      * (State.at (withRaster 100 10 "") 9 97 3).h.toNat
      ≤ (State.at (withRaster 100 10 "") 9 97 3).rasterCap := by decide

/-- Each alternative of the range clause, just outside its bound. -/
theorem witness_SmpWritesTheMajorityOfItsRun_range :
    (State.at (withRaster 4 1 "") 0 0 0).mw.toNat = 0 ∧
    (State.at (withRaster 4 1 "") 1 0 1).h.toNat ≤ (State.at (withRaster 4 1 "") 1 0 1).row.toNat ∧
    (State.at (withRaster 4 1 "") 0 3 2).w.toNat
      < (State.at (withRaster 4 1 "") 0 3 2).col.toNat
        + (State.at (withRaster 4 1 "") 0 3 2).mw.toNat ∧
    (withRaster 1001 1 "").rasterCap < (withRaster 1001 1 "").w.toNat * (withRaster 1001 1 "").h.toNat := by
  decide

/-- V-EXT-4, the last legal column. -/
theorem witness_ExtTakesSixtySevenAdjacentSamples :
    1 ≤ (State.at (withRaster 142 3 "") 0 8 2).mw.toNat ∧
    (State.at (withRaster 142 3 "") 0 8 2).row.toNat < (State.at (withRaster 142 3 "") 0 8 2).h.toNat ∧
    (State.at (withRaster 142 3 "") 0 8 2).col.toNat
      + 67 * (State.at (withRaster 142 3 "") 0 8 2).mw.toNat
      ≤ (State.at (withRaster 142 3 "") 0 8 2).w.toNat ∧
    (withRaster 142 3 "").w.toNat * (withRaster 142 3 "").h.toNat ≤ (withRaster 142 3 "").rasterCap := by
  decide

/-- V-EXT-6, V-EXT-7, a module width of 0, and a raster larger than the capacity. -/
theorem witness_ExtTakesSixtySevenAdjacentSamples_range :
    (State.at (withRaster 142 3 "") 0 9 2).w.toNat
      < (State.at (withRaster 142 3 "") 0 9 2).col.toNat
        + 67 * (State.at (withRaster 142 3 "") 0 9 2).mw.toNat ∧
    (State.at (withRaster 142 3 "") 3 4 2).h.toNat ≤ (State.at (withRaster 142 3 "") 3 4 2).row.toNat ∧
    (State.at (withRaster 142 3 "") 0 4 0).mw.toNat = 0 ∧
    (withRaster 1001 1 "").rasterCap < (withRaster 1001 1 "").w.toNat * (withRaster 1001 1 "").h.toNat := by
  decide

/-- The source's examples `110` and `1100` as pixels. -/
theorem witness_SampleIsStrictMajority :
    ∃ px : Nat → Nat → Bit, px 0 0 = 1 ∧ px 0 1 = 1 ∧ px 0 2 = 0 ∧ px 0 3 = 0 :=
  ⟨fun _ c => if c < 2 then 1 else 0, by decide⟩

/-- The widest tolerated shift at module width 3, and the first one that is not tolerated. -/
theorem witness_MajorityToleratesShift :
    (1 ≤ 3 ∧ 1 < 3 ∧ 1 ≤ (3 - 1) / 2) ∧ 1 ≤ 3 ∧ 2 < 3 ∧ ¬ 2 ≤ (3 - 1) / 2 := by decide

theorem witness_RenderedSymbolReadsFromShiftedStart :
    1 ≤ 3 ∧ 1 ≤ (3 - 1) / 2 ∧ 1 ≤ 2 ∧ 1 ≤ 2 ∧ 2 < 1 + 2 := by decide

theorem witness_CandidatesAreEnumeratedInOrder : (66 < 67 ∨ 5 = 0) ∧ (67 < 67 ∨ 0 = 0) := by decide

/-- First clause: V-LOC-22 at the capacity of these tests. -/
theorem witness_LocFindsTheFirstMatch_range :
    (withRaster 1001 1 "").rasterCap < (withRaster 1001 1 "").w.toNat * (withRaster 1001 1 "").h.toNat := by
  decide

/-- V-LOC-9: a raster with one candidate, which does not match. -/
def allWhite : State :=
  { withRaster 67 1 "" with ras := (List.range 67).map fun a => (a, 0) }

theorem one_candidate {c : Candidate} (h : IsCandidate 67 1 c) : c = ⟨1, 0, 0⟩ := by
  obtain ⟨mw, row, col⟩ := c
  obtain ⟨h1, h2, h3, h4⟩ := h
  simp only at h1 h2 h3 h4
  have : mw = 1 := by omega
  have : row = 0 := by omega
  have : col = 0 := by omega
  subst_vars
  rfl

theorem allWhite_test : candidateTest allWhite.pixel ⟨1, 0, 0⟩ = none := by decide

/-- Second clause. -/
theorem witness_LocFindsTheFirstMatch_nothing :
    allWhite.w.toNat * allWhite.h.toNat ≤ allWhite.rasterCap ∧
      ∀ c d, IsCandidate allWhite.w.toNat allWhite.h.toNat c → ¬ Matches allWhite.pixel c d := by
  refine ⟨by decide, fun c d hc hm => ?_⟩
  rw [one_candidate hc] at hm
  have := candidateTest_eq_some.2 hm
  rw [allWhite_test] at this
  cases this

/-- The symbol of 40078175 alone at module width 1. -/
def symbolE : State := withRaster 67 1 patE

theorem symbolE_test : candidateTest symbolE.pixel ⟨1, 0, 0⟩ = some idE := by decide

/-- Third clause. -/
theorem witness_LocFindsTheFirstMatch_match :
    symbolE.w.toNat * symbolE.h.toNat ≤ symbolE.rasterCap ∧
    IsCandidate symbolE.w.toNat symbolE.h.toNat ⟨1, 0, 0⟩ ∧ Matches symbolE.pixel ⟨1, 0, 0⟩ idE ∧
    ∀ c' d', IsCandidate symbolE.w.toNat symbolE.h.toNat c' → Precedes c' ⟨1, 0, 0⟩ →
      ¬ Matches symbolE.pixel c' d' := by
  refine ⟨by decide, by unfold IsCandidate; decide, candidateTest_eq_some.1 symbolE_test, ?_⟩
  intro c' d' hc hp
  rw [one_candidate hc] at hp
  simp [Precedes] at hp

/-- V-LOC-11, and a raster of no rows. -/
theorem witness_LocOnDegenerateRasterFindsNothing :
    ((withRaster 66 1 "").w.toNat < 67 ∧
      (withRaster 66 1 "").w.toNat * (withRaster 66 1 "").h.toNat ≤ (withRaster 66 1 "").rasterCap) ∧
    (withRaster 67 0 "").h.toNat = 0 ∧
      (withRaster 67 0 "").w.toNat * (withRaster 67 0 "").h.toNat ≤ (withRaster 67 0 "").rasterCap := by
  decide

theorem witness_LocResultIsValidAndReproducible :
    ((next? (exec .loc symbolE)).map fun t => t.status.code) = some .ok := by decide

/-- The identifier 1 2 3 4 5 6 7 0. -/
def idB : Vector Digit 8 := #v[1, 2, 3, 4, 5, 6, 7, 0]

/-- `RA` (V-LOC-2): 40078175 at module width 2, margin 4, three rows. -/
def rasterRA : State := blank.showing idE 2 4 3 0

/-- `RB` (V-LOC-4): 12345670 at module width 3, margin 2, two rows between quiet rows. -/
def rasterRB : State := blank.showing idB 3 2 2 1

/-- 40078175 at module width 1 without a margin, one row. -/
def rasterOne : State := blank.showing idE 1 0 1 0

theorem rasterRA_shows : ShowsRendered rasterRA idE 2 4 3 0 := showing_shows _ _ (by decide) (by decide)
theorem rasterRB_shows : ShowsRendered rasterRB idB 3 2 2 1 := showing_shows _ _ (by decide) (by decide)
theorem rasterOne_shows : ShowsRendered rasterOne idE 1 0 1 0 := showing_shows _ _ (by decide) (by decide)

/-- At module width 3 with a margin and quiet rows, and at width 1 without them. -/
theorem witness_LocOnRenderedSymbol :
    (1 ≤ 3 ∧ 1 ≤ 2 ∧ cksumOK idB ∧ ShowsRendered rasterRB idB 3 2 2 1 ∧
      rasterRB.w.toNat * rasterRB.h.toNat ≤ rasterRB.rasterCap) ∧
    1 ≤ 1 ∧ 1 ≤ 1 ∧ cksumOK idE ∧ ShowsRendered rasterOne idE 1 0 1 0 ∧
      rasterOne.w.toNat * rasterOne.h.toNat ≤ rasterOne.rasterCap :=
  ⟨⟨by decide, by decide, by decide, rasterRB_shows, by decide⟩,
    by decide, by decide, by decide, rasterOne_shows, by decide⟩

theorem witness_LocReturnsTheRenderedIdentifier :
    (1 ≤ 3 ∧ 1 ≤ 2 ∧ cksumOK idB ∧ ShowsRendered rasterRB idB 3 2 2 1 ∧
      rasterRB.w.toNat * rasterRB.h.toNat ≤ rasterRB.rasterCap) ∧
    1 ≤ 1 ∧ 1 ≤ 1 ∧ cksumOK idE ∧ ShowsRendered rasterOne idE 1 0 1 0 ∧
      rasterOne.w.toNat * rasterOne.h.toNat ≤ rasterOne.rasterCap :=
  witness_LocOnRenderedSymbol

/-- Each of the two widths. -/
theorem witness_LocReadsRenderedSymbolAtWidthsOneAndTwo :
    ((1 = 1 ∨ 1 = 2) ∧ 1 ≤ 1 ∧ cksumOK idE ∧ ShowsRendered rasterOne idE 1 0 1 0 ∧
      rasterOne.w.toNat * rasterOne.h.toNat ≤ rasterOne.rasterCap) ∧
    (2 = 1 ∨ 2 = 2) ∧ 1 ≤ 3 ∧ cksumOK idE ∧ ShowsRendered rasterRA idE 2 4 3 0 ∧
      rasterRA.w.toNat * rasterRA.h.toNat ≤ rasterRA.rasterCap :=
  ⟨⟨by decide, by decide, by decide, rasterOne_shows, by decide⟩,
    by decide, by decide, by decide, rasterRA_shows, by decide⟩

/-- A failed `VAL`, a failed `SMP` and a failed `LOC`. -/
theorem witness_FailedCommandWritesOnlyStatus :
    ((next? (exec .val (withId "12345678"))).map fun t => t.status.code) = some .checksumError ∧
    ((next? (exec .smp blank)).map fun t => t.status.code) = some .rangeError ∧
    ((next? (exec .loc blank)).map fun t => t.status.code) = some .notFoundError ∧
    decode 0x09 = .error .reservedOpcode := by decide

/-- A premise `exec i s = .next t` and those beside it: every command from the blank state. -/
theorem witness_CommandsLeaveOtherStateAlone :
    ∀ i ∈ [Instr.chk, .val, .enc, .dec, .smp, .ext, .loc], (next? (exec i blank)).isSome := by decide

/-- A `DEC` that writes all destinations, and a `LOC` that does. -/
theorem witness_WrittenValuesFit :
    (next? (exec .dec (withPattern patE))).isSome ∧ (next? (exec .loc symbolE)).isSome := by decide

/-- Two states that differ outside the operands: another `CKD`, and for `DEC` with a length other than 67
another pattern. -/
theorem witness_CodecCommandsReadOnlyTheirOperands :
    (withId "40078175").idlen = ({ withId "40078175" with ckd := 5 } : State).idlen ∧
    (withId "40078175").idbuf = ({ withId "40078175" with ckd := 5 } : State).idbuf ∧
    (next? (exec .val { withId "40078175" with ckd := 5 })).isSome ∧
    (next? (exec .enc { withId "40078175" with ckd := 5 })).isSome ∧
    blank.patlen = ({ blank with pat := pattern patE } : State).patlen ∧
    ¬ blank.patlen.toNat = 67 ∧
    (next? (exec .dec { blank with pat := pattern patE })).isSome := by decide

/-- Two states whose cells differ just beyond the raster. -/
theorem witness_RasterCommandsReadOnlyTheRaster :
    symbolE.w = (symbolE.memWrite 67 1).w ∧ symbolE.h = (symbolE.memWrite 67 1).h ∧
    symbolE.rasterCap = (symbolE.memWrite 67 1).rasterCap ∧
    (∀ a, a < symbolE.w.toNat * symbolE.h.toNat → symbolE.memRead a = (symbolE.memWrite 67 1).memRead a) ∧
    symbolE.row = (symbolE.memWrite 67 1).row ∧ symbolE.col = (symbolE.memWrite 67 1).col ∧
    symbolE.mw = (symbolE.memWrite 67 1).mw := by
  refine ⟨rfl, rfl, rfl, fun a ha => ?_, rfl, rfl, rfl⟩
  have : symbolE.w.toNat * symbolE.h.toNat = 67 := by decide
  exact (memRead_memWrite_ne symbolE 1 (by omega)).symm

/-- A command that sets the flag, a step that keeps a flag that is set, and a reset event that clears it. -/
theorem witness_FaultFlagIsSticky :
    ((next? (runCommand 0x05 blank)).map fun t => t.status.code) = some .rangeError ∧
    ((next? (step ((blank.complete .rangeError).withFetchWord 8 2))).map fun t => t.status.flt) = some 1 ∧
    ((next? (step { blank.complete .rangeError with pending := [.reset] })).map fun t => t.status.flt)
      = some 0 ∧
    (blank.complete .rangeError).status.flt = 1 := by decide

theorem blank_invariant : UnitInvariant blank := by
  constructor <;> decide

/-- Two commands pending. -/
def twoCommands : State := { blank with pending := [.write 0 1, .write 0 7] }

/-- A run of two commands without a fault. -/
theorem witness_NoFaultAtEndMeansNoFaultAnywhere :
    UnitInvariant twoCommands ∧ NoResetPending twoCommands ∧
    ((next? (runSteps 1 twoCommands)).bind fun u =>
      (next? (runSteps 1 u)).map fun t => t.status.flt) = some 0 := by
  refine ⟨by constructor <;> decide, ?_, by decide⟩
  unfold NoResetPending
  decide

/-- The first step of that run. -/
theorem witness_StepWithoutResetKeepsRecordedFaults :
    UnitInvariant twoCommands ∧ NoResetPending twoCommands ∧
    ((next? (step twoCommands)).map fun t => t.status.flt) = some 0 :=
  ⟨witness_NoFaultAtEndMeansNoFaultAnywhere.1, witness_NoFaultAtEndMeansNoFaultAnywhere.2.1, by decide⟩

theorem witness_StepKeepsTheInvariant :
    UnitInvariant blank ∧ (next? (step blank)).isSome := ⟨blank_invariant, by decide⟩

theorem witness_ResetEventRestoresEveryRegister :
    ({ blank with pending := [.reset] } : State).pending = .reset :: [] := by decide

/-- The widest values of a coordinate register, an 8-bit register and a pattern element. -/
theorem witness_HostWriteIsReadBack :
    (Reg.w ≠ .cmd ∧ Reg.w.readOnly = false ∧ 65535 < 2 ^ Reg.w.width ∧
      ({ blank with pending := [.write 5 65535, .read 5] } : State).pending
        = .write Reg.w.number 65535 :: .read Reg.w.number :: []) ∧
    ((Reg.idbuf 7).readOnly = false ∧ 255 < 2 ^ (Reg.idbuf 7).width) ∧
    (Reg.pat 66).readOnly = false ∧ 1 < 2 ^ (Reg.pat 66).width := by decide

/-- Clause by clause: a write to a read-only register, a read, a cell at the capacity's edge, and a write
to a writable register. -/
theorem witness_HostAccessRights :
    (Reg.ckd.readOnly = true ∧ 15 < 2 ^ Reg.ckd.width ∧
      ({ blank with pending := [.write 2 15] } : State).pending = .write Reg.ckd.number 15 :: []) ∧
    ({ blank with pending := [.read 2] } : State).pending = .read Reg.ckd.number :: [] ∧
    (({ blank with pending := [.readRas 999] } : State).pending = .readRas 999 :: [] ∧
      999 < blank.rasterCap) ∧
    Reg.row ≠ .cmd ∧
      (next? (step { blank with pending := [.write Reg.row.number 65535] })).isSome := by decide

/-- Each clause just outside what has a meaning. -/
theorem witness_MeaninglessHostAccessesAreRefused :
    (regOf 0x0D = none ∧ regOf 0x0F = none ∧ regOf 0x18 = none ∧ regOf 0x3F = none ∧
      regOf 0x83 = none) ∧
    (2 ^ Reg.w.width ≤ 65536 ∧ 2 ^ (Reg.pat 0).width ≤ 2 ∧ 2 ^ Reg.cmd.width ≤ 256 ∧
      2 ^ Reg.ckd.width ≤ 16) ∧ blank.rasterCap ≤ 1000 := by decide

theorem witness_RasterCellIsReadBack :
    999 < blank.rasterCap ∧ ({ blank with pending := [.writeRas 999 1, .readRas 999] } : State).pending
      = .writeRas 999 1 :: .readRas 999 :: [] := by decide

theorem witness_LoadedRasterIsReadRowMajor :
    3 < 2 ^ 16 ∧ 2 < 2 ^ 16 ∧ (bits "110010").length = 3 * 2 ∧ 3 * 2 ≤ blank.rasterCap ∧
    ({ blank with pending := loadRaster 3 2 (bits "110010") } : State).pending
      = loadRaster 3 2 (bits "110010") ++ [] := by decide

/-- Strings shorter than, as long as, and longer than the registers. -/
theorem witness_PresentedStringsReachTheRegisters :
    ([] : List Byte).length ≤ 255 ∧ (List.replicate 9 (0x35 : Byte)).length ≤ 255 ∧
    (bits patE).length ≤ 255 ∧
    ({ blank with pending := (Stmt.wrid [0x35]).expand } : State).pending
      = (Stmt.wrid [0x35]).expand ++ [] := by decide

end Sys2Proof.Tests
end

section
/-! SUPPORT. What the commands write (R42), and the frame and the bounds that follow: the proofs of O32,
O33, O38 and O39. -/

namespace Sys2Proof.Machine

/-! ### The candidates of a raster (R135) -/

theorem mem_candidates {W H : Nat} {c : Candidate} : c ∈ candidates W H ↔ IsCandidate W H c := by
  obtain ⟨mw, row, col⟩ := c
  simp only [candidates, IsCandidate, List.mem_flatMap, List.mem_map, List.mem_range,
    Candidate.mk.injEq]
  constructor
  · rintro ⟨i, hi, r, hr, k, hk, rfl, rfl, rfl⟩
    omega
  · rintro ⟨hmw, hw, hrow, hcol⟩
    exact ⟨mw - 1, by omega, row, hrow, col, by omega, by omega, rfl, rfl⟩

theorem isCandidate_of_locate {px : Nat → Nat → Bit} {W H : Nat} {d : Vector Digit 8} {c : Candidate}
    (h : locate px W H = some (d, c)) : IsCandidate W H c := by
  obtain ⟨before, after, hl, -, -⟩ := locate_eq_some.1 h
  exact mem_candidates.1 (by simp [hl])

/-- A candidate of a raster whose width and height are register values fits the match registers (R36). -/
theorem isCandidate_toNat_ofNat {w h : Coord} {c : Candidate} (hc : IsCandidate w.toNat h.toNat c) :
    (BitVec.ofNat 16 c.mw).toNat = c.mw ∧ (BitVec.ofNat 16 c.row).toNat = c.row ∧
      (BitVec.ofNat 16 c.col).toNat = c.col := by
  obtain ⟨hmw, hw, hrow, hcol⟩ := hc
  have := w.isLt
  have := h.isLt
  simp only [BitVec.toNat_ofNat]
  omega

/-! ### What a command writes before it completes -/

/-- `Written i s u`: `u` is `s` with destinations of command `i` written, and nothing else (R42). -/
inductive Written (s : State) : Instr → State → Prop where
  | nothing (i : Instr) : Written s i s
  | checkDigit (d : Digit) : Written s .chk (s.setCkd d)
  | verdict (b : Bit) : Written s .val (s.setValid b)
  | encoded (p : Vector Bit 67) : Written s .enc (s.setPattern p)
  | decoded (d : Vector Digit 8) : Written s .dec (s.setIdentifier d)
  | sampled (b : Bit) : Written s .smp (s.setBit b)
  | extracted (p : Vector Bit 67) : Written s .ext (s.setPattern p)
  | located (d : Vector Digit 8) (c : Candidate) (hc : IsCandidate s.w.toNat s.h.toNat c) :
      Written s .loc ((s.setIdentifier d).setMatch c.mw c.row c.col)

/-- Every command writes destinations of its own, then completes (R14, R42). -/
theorem exec_written {i : Instr} {s t : State} (h : exec i s = .next t) :
    ∃ u c, Written s i u ∧ t = u.complete c := by
  cases i with
  | chk =>
    obtain ⟨-, d, rfl⟩ | ⟨-, rfl⟩ := execChk_cases h
    · exact ⟨_, _, .checkDigit d, rfl⟩
    · exact ⟨_, _, .nothing _, rfl⟩
  | val =>
    obtain ⟨-, rfl⟩ | ⟨-, -, rfl⟩ | ⟨-, rfl⟩ := execVal_cases h <;> exact ⟨_, _, .verdict _, rfl⟩
  | enc =>
    obtain ⟨-, rfl⟩ | ⟨-, rfl⟩ := execEnc_cases h
    · exact ⟨_, _, .nothing _, rfl⟩
    · exact ⟨_, _, .encoded _, rfl⟩
  | dec =>
    obtain ⟨-, rfl⟩ | ⟨-, rfl⟩ | ⟨d, -, rfl⟩ := execDec_cases h
    · exact ⟨_, _, .nothing _, rfl⟩
    · exact ⟨_, _, .nothing _, rfl⟩
    · exact ⟨_, _, .decoded d, rfl⟩
  | smp =>
    obtain ⟨-, rfl⟩ | ⟨-, rfl⟩ := execSmp_cases h
    · exact ⟨_, _, .nothing _, rfl⟩
    · exact ⟨_, _, .sampled _, rfl⟩
  | ext =>
    obtain ⟨-, rfl⟩ | ⟨-, rfl⟩ := execExt_cases h
    · exact ⟨_, _, .nothing _, rfl⟩
    · exact ⟨_, _, .extracted _, rfl⟩
  | loc =>
    obtain ⟨-, rfl⟩ | ⟨-, -, rfl⟩ | ⟨-, d, c, hl, rfl⟩ := execLoc_cases h
    · exact ⟨_, _, .nothing _, rfl⟩
    · exact ⟨_, _, .nothing _, rfl⟩
    · exact ⟨_, _, .located d c (isCandidate_of_locate hl), rfl⟩

/-- A digit in `CKD` is at most 9 (R25). -/
theorem ofNat_digit_toNat_le (d : Digit) : (BitVec.ofNat 4 d.val).toNat ≤ 9 := by
  have := d.isLt
  simp
  omega

/-! ### The invariant, update by update -/

theorem invariant_complete {s : State} (h : UnitInvariant s) (c : OutcomeCode) :
    UnitInvariant (s.complete c) :=
  { h with faultFlagged := fun hc => by simp_all }

theorem invariant_written {i : Instr} {s u : State} (h : UnitInvariant s) (hw : Written s i u) :
    UnitInvariant u := by
  cases hw with
  | nothing => exact h
  | checkDigit d => exact { h with ckdDigit := ofNat_digit_toNat_le d }
  | located d c hc =>
    obtain ⟨hmw, hrow, hcol⟩ := isCandidate_toNat_ofNat hc
    obtain ⟨-, -, hr, hk⟩ := hc
    have := s.w.isLt
    have := s.h.isLt
    exact { h with
      matchCol := by simp only [setMatch_lmw, setMatch_lcol, hmw, hcol, Config.CW]; omega
      matchRow := by simp only [setMatch_lrow, hrow, Config.CW]; omega }
  | _ => exact { h with }

theorem invariant_exec {i : Instr} {s t : State} (h : UnitInvariant s) (ht : exec i s = .next t) :
    UnitInvariant t := by
  obtain ⟨u, c, hw, rfl⟩ := exec_written ht
  exact invariant_complete (invariant_written h hw) c

theorem invariant_giveHost {s : State} (h : UnitInvariant s) (v : Nat) : UnitInvariant (s.giveHost v) :=
  { h with }

theorem invariant_writeReg {s : State} (h : UnitInvariant s) (v : Nat) (r : Reg) :
    UnitInvariant (s.writeReg v r) := by
  cases r <;> exact { h with }

theorem invariant_memWrite {s : State} (h : UnitInvariant s) {a : Nat} (ha : a < s.rasterCap) (b : Bit) :
    UnitInvariant (s.memWrite a b) :=
  { h with
    rasCanonical := wf_write h.rasCanonical a b
    rasWithin := within_write h.rasWithin ha b }

/-- The reset values meet the invariant for every capacity of at least one cell. -/
theorem invariant_resetUnit {s : State} (h : 1 ≤ s.rasterCap) : UnitInvariant s.resetUnit := by
  refine ⟨List.Pairwise.nil, by simp, h, ?_, by simp [OutcomeCode.isFault], ?_, ?_⟩ <;>
    simp [resetUnit_eq, State.reset, Config.CW]

theorem one_le_rasterCap : 1 ≤ Config.rasterCap := Nat.le_add_left 1 _

end Sys2Proof.Machine

namespace Sys2Proof.Proofs

open Sys2Proof.Machine

/-- Settles O38: the branches of a step, each by the lemma about its update. -/
theorem stepKeepsTheInvariant : Obligations.StepKeepsTheInvariant := by
  unfold Obligations.StepKeepsTheInvariant
  intro s t h ht
  obtain ⟨-, rfl⟩ | ⟨e, rest, u, -, hu, hcase⟩ := step_cases ht
  · exact h
  have hinv : UnitInvariant u := hu ▸ { h with }
  obtain ⟨_, _, -, -, rfl⟩ | ⟨_, v, r, -, -, -, -, rfl⟩ | ⟨_, _, _, -, -, -, hx⟩ | ⟨_, _, -, -, rfl⟩ |
    ⟨_, -, -, rfl⟩ | ⟨a, b, -, ha, rfl⟩ | ⟨-, rfl⟩ := hcase
  · exact invariant_giveHost hinv _
  · exact invariant_writeReg hinv v r
  · exact invariant_exec hinv hx
  · exact invariant_complete hinv _
  · exact invariant_giveHost hinv _
  · exact invariant_memWrite hinv ha b
  · exact invariant_resetUnit hinv.capPositive

/-- Settles O39: the reset state is, but for the count of resets, what a reset event leaves. -/
theorem resetMeetsTheInvariant : Obligations.ResetMeetsTheInvariant := by
  unfold Obligations.ResetMeetsTheInvariant
  exact { invariant_resetUnit (s := State.reset) one_le_rasterCap with }

/-- Settles O32: whichever destinations the command wrote, the other fields are those of `s`. -/
theorem commandsLeaveOtherStateAlone : Obligations.CommandsLeaveOtherStateAlone := by
  unfold Obligations.CommandsLeaveOtherStateAlone
  intro i s t h
  obtain ⟨u, c, hw, rfl⟩ := exec_written h
  cases hw <;> simp [State.memRead]

/-- Settles O33: the values written, destination by destination. -/
theorem writtenValuesFit : Obligations.WrittenValuesFit := by
  unfold Obligations.WrittenValuesFit
  intro i s t h
  obtain ⟨u, c, hw, rfl⟩ := exec_written h
  refine ⟨Nat.le_of_lt_succ (BitVec.isLt _), ?_⟩
  cases hw with
  | checkDigit d =>
    have hd : (BitVec.ofNat 4 d.val).toNat ≤ 9 := ofNat_digit_toNat_le d
    exact ⟨.inr hd, .inl rfl, .inl rfl, .inl rfl, .inl ⟨rfl, rfl, rfl⟩⟩
  | decoded d =>
    exact ⟨.inl rfl, .inr rfl, .inl rfl, .inr (setIdentifier_wellFormed s d).1.2, .inl ⟨rfl, rfl, rfl⟩⟩
  | located d c hc =>
    refine ⟨.inl rfl, .inr rfl, .inl rfl, .inr (setIdentifier_wellFormed s d).1.2, .inr ?_⟩
    obtain ⟨hmw, hrow, hcol⟩ := isCandidate_toNat_ofNat hc
    obtain ⟨h1, h2, h3, h4⟩ := hc
    simp only [complete_lmw, complete_lrow, complete_lcol, setMatch_lmw, setMatch_lrow, setMatch_lcol,
      hmw, hrow, hcol]
    omega
  | _ => simp

end Sys2Proof.Proofs
end

section
/-! SUPPORT. Host accesses one by one (R38 to R40) and the register map (R22): the proofs of O3, O5, O40,
O41, O44 to O49. -/

namespace Sys2Proof.Machine

/-! ### The register map (R22) -/

theorem regOf_eq_some_iff {n : Nat} {r : Reg} : regOf n = some r ↔ r.number = n := by
  refine ⟨fun h => ?_, fun h => h ▸ regOf_number r⟩
  unfold regOf at h
  split at h
  · cases h
    simp only [Reg.number]
    omega
  · split at h
    · cases h
      simp only [Reg.number]
      omega
    · split at h <;> cases h <;> rfl

theorem regNumber_lt (r : Reg) : r.number < 0x83 := by
  cases r <;> simp only [Reg.number] <;> omega

theorem regOf_eq_none_iff {n : Nat} :
    regOf n = none ↔ 0x0D ≤ n ∧ n ≤ 0x0F ∨ 0x18 ≤ n ∧ n ≤ 0x3F ∨ 0x83 ≤ n := by
  by_cases hn : n < 0x83
  · revert n
    decide
  · have hnone : regOf n = none :=
      Option.eq_none_iff_forall_ne_some.2 fun r hr => hn (regOf_eq_some_iff.1 hr ▸ regNumber_lt r)
    simp only [hnone, true_iff]
    omega

/-! ### `STATUS` as a number (R24) -/

theorem toNat_append_eq_add {m n : Nat} (x : BitVec m) (y : BitVec n) :
    (x ++ y).toNat = x.toNat * 2 ^ n + y.toNat := by
  rw [BitVec.toNat_append, ← Nat.shiftLeft_add_eq_or_of_lt y.isLt, Nat.shiftLeft_eq]

theorem status_word_toNat (f : Status) :
    f.word.toNat = f.code.number.toNat + 16 * f.valid.toNat + 32 * f.bit.toNat + 128 * f.flt.toNat := by
  simp only [Status.word, toNat_append_eq_add]
  simp
  omega

/-- Bits 3 and 6 are reserved and read 0. -/
theorem status_reserved_bits (f : Status) :
    f.word.toNat.testBit 3 = false ∧ f.word.toNat.testBit 6 = false := by
  have hc := f.code.number.isLt
  have hv := f.valid.isLt
  have hb := f.bit.isLt
  simp only [status_word_toNat, Nat.testBit_eq_decide_div_mod_eq, decide_eq_false_iff_not]
  omega

/-! ### The host's lists are no register and no cell -/

@[simp] theorem readReg_withPending (s : State) (p : List HostEvent) (r : Reg) :
    ({ s with pending := p } : State).readReg r = s.readReg r :=
  readReg_withLists s p s.returned r

@[simp] theorem readReg_giveHost (s : State) (v : Nat) (r : Reg) :
    (s.giveHost v).readReg r = s.readReg r :=
  readReg_withLists s s.pending (v :: s.returned) r

@[simp] theorem memRead_withPending (s : State) (p : List HostEvent) (a : Nat) :
    ({ s with pending := p } : State).memRead a = s.memRead a := rfl

@[simp] theorem memRead_giveHost (s : State) (v a : Nat) : (s.giveHost v).memRead a = s.memRead a := rfl

@[simp] theorem memRead_writeReg (s : State) (v : Nat) (r : Reg) (a : Nat) :
    (s.writeReg v r).memRead a = s.memRead a :=
  memRead_congr (writeReg_ras s v r) (writeReg_resets s v r) a

/-- A read-only register keeps its value (R39). -/
theorem writeReg_of_readOnly (s : State) (v : Nat) {r : Reg} (h : r.readOnly = true) :
    s.writeReg v r = s := by
  cases r <;> cases h <;> rfl

/-! ### One host access as a step -/

section
variable {s : State} {rest : List HostEvent}

theorem step_read {r : Reg} (h : s.pending = .read r.number :: rest) :
    step s = .next (({ s with pending := rest } : State).giveHost (s.readReg r)) := by
  rw [step_cons h]
  simp [perform, hostRead]

theorem step_write {r : Reg} {v : Nat} (hc : r ≠ .cmd) (hv : v < 2 ^ r.width)
    (h : s.pending = .write r.number v :: rest) :
    step s = .next (({ s with pending := rest } : State).writeReg v r) := by
  rw [step_cons h]
  simp [perform, hostWrite, hc, hv]

theorem step_write_cmd {v : Nat} (hv : v < 256) (h : s.pending = .write (Reg.number .cmd) v :: rest) :
    step s = runCommand (BitVec.ofNat 8 v) { s with pending := rest } := by
  rw [step_cons h]
  simp [perform, hostWrite, Reg.width, hv]

theorem step_readRas {a : Nat} (ha : a < s.rasterCap) (h : s.pending = .readRas a :: rest) :
    step s = .next (({ s with pending := rest } : State).giveHost (s.memRead a).toNat) := by
  rw [step_cons h]
  simp [perform, hostReadRas, ha]

theorem step_writeRas {a : Nat} {b : Bit} (ha : a < s.rasterCap) (h : s.pending = .writeRas a b :: rest) :
    step s = .next (({ s with pending := rest } : State).memWrite a b) := by
  rw [step_cons h]
  simp [perform, hostWriteRas, ha]

end

theorem runCommand_of_decode {c : Byte} {i : Instr} (h : decode c = .ok i) (s : State) :
    runCommand c s = exec i s := by
  simp [runCommand, h]

theorem decode_encode (i : Instr) : decode (encode i) = .ok i := by
  cases i <;> rfl

end Sys2Proof.Machine

namespace Sys2Proof.Proofs

open Sys2Proof.Machine

/-- Settles O46: a write step, then a read step. -/
theorem hostWriteIsReadBack : Obligations.HostWriteIsReadBack := by
  unfold Obligations.HostWriteIsReadBack
  intro s r v rest hc hw hv hp
  refine ⟨_, _, step_write hc hv hp, step_read (r := r) (rest := rest) (by simp), ?_, rfl, ?_, ?_⟩
  · simp [readReg_writeReg_same _ hc hw hv]
  · intro r' hr
    rw [readReg_giveHost, readReg_withPending, readReg_writeReg_ne _ _ hr, readReg_withPending]
  · intro a
    rw [memRead_giveHost, memRead_withPending, memRead_writeReg, memRead_withPending]

/-- Settles O49: a cell write, then a cell read. -/
theorem rasterCellIsReadBack : Obligations.RasterCellIsReadBack := by
  unfold Obligations.RasterCellIsReadBack
  intro s a b rest ha hp
  refine ⟨_, _, step_writeRas ha hp, step_readRas (a := a) (rest := rest) ha rfl, ?_, rfl, ?_, ?_⟩
  · simp
  · intro a' ha'
    rw [memRead_giveHost, memRead_withPending, memRead_memWrite_ne _ _ ha', memRead_withPending]
  · intro r
    rw [readReg_giveHost, readReg_withPending, readReg_memWrite, readReg_withPending]

/-- Settles O3: the word is decoded, and `exec` runs the command. -/
theorem stepRunsDecodedCommand : Obligations.StepRunsDecodedCommand := by
  unfold Obligations.StepRunsDecodedCommand
  have step_decoded (s : State) (rest : List HostEvent) (v : Nat) (i : Instr)
      (hp : s.pending = .write 0x00 v :: rest) (hv : v < 256) (hd : decode (BitVec.ofNat 8 v) = .ok i) :
      step s = exec i { s with pending := rest } :=
    (step_write_cmd hv hp).trans (runCommand_of_decode hd _)
  refine ⟨step_decoded, fun s i => ?_⟩
  have hlt : (encode i).toNat < 2 ^ 8 := (encode i).isLt
  have hp : (s.withFetchWord 8 (encode i).toNat).pending = .write 0x00 (encode i).toNat :: s.pending := by
    simp only [State.withFetchWord, issueNext, Reg.number, Nat.mod_eq_of_lt hlt]
  exact step_decoded _ _ _ i hp hlt (by simp [decode_encode])

/-- Settles O5 by the empty branch of a step. -/
theorem idleUnitStays : Obligations.IdleUnitStays := by
  unfold Obligations.IdleUnitStays
  exact fun _ h => step_nil h

/-- Settles O40, register by register. -/
theorem registersAfterReset : Obligations.RegistersAfterReset := by
  unfold Obligations.RegistersAfterReset
  intro r
  cases r with
  | idbuf i => simp [State.readReg, State.reset]
  | pat k => simp [State.readReg, State.reset]
  | _ => rfl

/-- Settles O41: no cell is listed, so each reads as the free value. -/
theorem cellsAfterResetAreFree : Obligations.CellsAfterResetAreFree := by
  unfold Obligations.CellsAfterResetAreFree
  exact ⟨fun _ => rfl, fun _ _ => rfl⟩

/-- Settles O44 by inverting `regOf`. -/
theorem registerNumbersNameRegisters : Obligations.RegisterNumbersNameRegisters := by
  unfold Obligations.RegisterNumbersNameRegisters
  exact ⟨fun _ _ => regOf_eq_some_iff, fun _ => regOf_eq_none_iff⟩

/-- Settles O45: each concatenation in `Status.word` shifts by the width of what follows. -/
theorem statusReadsFieldByField : Obligations.StatusReadsFieldByField := by
  unfold Obligations.StatusReadsFieldByField
  exact fun s => status_word_toNat s.status

/-- Settles O47, clause by clause from the host accesses as steps. -/
theorem hostAccessRights : Obligations.HostAccessRights := by
  unfold Obligations.HostAccessRights
  refine ⟨?_, fun _ => rfl, fun s => status_reserved_bits s.status, fun _ _ _ hp => step_read hp,
    fun _ _ _ hp ha => step_readRas ha hp, ?_⟩
  · intro s r v rest hr hv hp
    have hc : r ≠ .cmd := by rintro rfl; cases hr
    rw [step_write hc hv hp, writeReg_of_readOnly _ _ hr]
  · intro s t r v rest hc hp ht
    rw [step_cons hp] at ht
    obtain ⟨reg, hreg, -, hwritten⟩ := hostWrite_cases ht
    obtain rfl : r = reg := Option.some.inj ((regOf_number r).symm.trans hreg)
    obtain ⟨rfl, -⟩ | ⟨-, rfl⟩ := hwritten
    · exact absurd rfl hc
    · refine ⟨by simp, fun r' hr => ?_, by simp⟩
      rw [readReg_writeReg_ne _ _ hr, readReg_withPending]

/-- Settles O48, access by access. -/
theorem meaninglessHostAccessesAreRefused : Obligations.MeaninglessHostAccessesAreRefused := by
  unfold Obligations.MeaninglessHostAccessesAreRefused
  intro s rest
  refine ⟨fun n hn hp => ?_, fun n v hn hp => ?_, fun r v hv hp => ?_, fun a ha hp => ?_,
    fun a b ha hp => ?_⟩ <;> rw [step_cons hp]
  · simp [perform, hostRead, hn]
  · simp [perform, hostWrite, hn]
  · simp [perform, hostWrite, hv]
  · simp [perform, hostReadRas, ha]
  · simp [perform, hostWriteRas, ha]

end Sys2Proof.Proofs
end

section
/-! SUPPORT. The results of the commands as functions of their operands (R42): the proofs of O34 and O35. -/

namespace Sys2Proof.Machine

/-! ### The codec commands -/

theorem execVal_result {s t : State} (h : execVal s = .next t) :
    t.status.code = (if ¬ wellFormedId s.idlen s.idbuf then .identifierFormatError
      else if ¬ cksumOK (digits s.idbuf) then .checksumError else .ok) ∧
    t.status.valid = if validId s.idlen s.idbuf then 1 else 0 := by
  obtain ⟨hw, rfl⟩ | ⟨hw, hc, rfl⟩ | ⟨hv, rfl⟩ := execVal_cases h
  · exact ⟨(if_pos hw).symm, (if_neg fun hv => hw hv.1).symm⟩
  · exact ⟨((if_neg (not_not_intro hw)).trans (if_pos hc)).symm, (if_neg fun hv => hc hv.2).symm⟩
  · obtain ⟨hw, hc⟩ := hv
    exact ⟨((if_neg (not_not_intro hw)).trans (if_neg (not_not_intro hc))).symm,
      (if_pos ⟨hw, hc⟩).symm⟩

theorem execEnc_result {s t : State} (h : execEnc s = .next t) :
    t.status.code = (if wellFormedId s.idlen s.idbuf then .ok else .identifierFormatError) ∧
    (t.status.code = .ok → t.pat = enc67 (digits s.idbuf) ∧ t.patlen = 67) := by
  obtain ⟨hw, rfl⟩ | ⟨hw, rfl⟩ := execEnc_cases h
  · exact ⟨(if_neg hw).symm, nofun⟩
  · exact ⟨(if_pos hw).symm, fun _ => ⟨rfl, rfl⟩⟩

/-- The outcome code of `DEC` for what `dec67` returns (R99). -/
def Decoded.outcome : Decoded → OutcomeCode
  | .ok _ => .ok
  | .structureError => .structureError
  | .unknownSymbolError => .unknownSymbolError

theorem execDec_result {s t : State} (h : execDec s = .next t) :
    t.status.code = (dec67 s.patlen.toNat s.pat).outcome ∧
    (t.status.code = .ok →
      ∃ d, dec67 s.patlen.toNat s.pat = .ok d ∧ t.idbuf = charsOf d ∧ t.idlen = 8) := by
  obtain ⟨hd, rfl⟩ | ⟨hd, rfl⟩ | ⟨d, hd, rfl⟩ := execDec_cases h
  · simp [hd, Decoded.outcome]
  · simp [hd, Decoded.outcome]
  · simp [hd, Decoded.outcome, charsOf, digitChar]

/-- Only a pattern of length 67 is looked at (R94). -/
theorem dec67_congr {len : Nat} {p p' : Vector Bit 67} (h : len = 67 → p = p') :
    dec67 len p = dec67 len p' := by
  by_cases hl : len = 67
  · rw [h hl]
  · simp [dec67, hl]

/-! ### The raster commands -/

theorem execSmp_result {s t : State} (h : execSmp s = .next t) :
    t.status.code = (if s.rangeBad 1 then .rangeError else .ok) ∧
    (t.status.code = .ok → ¬ s.rangeBad 1 ∧
      t.status.bit = sample s.pixel s.row.toNat s.col.toNat s.mw.toNat) := by
  obtain ⟨hb, rfl⟩ | ⟨hb, rfl⟩ := execSmp_cases h <;> simp [hb]

theorem execExt_result {s t : State} (h : execExt s = .next t) :
    t.status.code = (if s.rangeBad 67 then .rangeError else .ok) ∧
    (t.status.code = .ok → ¬ s.rangeBad 67 ∧
      t.pat = extract s.pixel s.row.toNat s.col.toNat s.mw.toNat ∧ t.patlen = 67) := by
  obtain ⟨hb, rfl⟩ | ⟨hb, rfl⟩ := execExt_cases h <;> simp [hb]

theorem execLoc_result {s t : State} (h : execLoc s = .next t) :
    t.status.code = (if ¬ s.geomOK then .rangeError
      else if (locate s.pixel s.w.toNat s.h.toNat).isSome then .ok else .notFoundError) ∧
    (t.status.code = .ok → ∃ d c, locate s.pixel s.w.toNat s.h.toNat = some (d, c) ∧
      t.idbuf = charsOf d ∧ t.idlen = 8 ∧ t.lmw = BitVec.ofNat 16 c.mw ∧
      t.lrow = BitVec.ofNat 16 c.row ∧ t.lcol = BitVec.ofNat 16 c.col) := by
  obtain ⟨hg, rfl⟩ | ⟨hg, hl, rfl⟩ | ⟨hg, d, c, hl, rfl⟩ := execLoc_cases h
  · simp [hg]
  · simp [hg, hl]
  · simp [hg, hl, charsOf, digitChar]

/-! ### Which pixels are looked at -/

/-- A sample run or a row of 67 of them looks at `67 * mw` pixels (R121). -/
theorem extract_congr {px px' : Nat → Nat → Bit} {row col mw : Nat}
    (h : ∀ i < 67 * mw, px row (col + i) = px' row (col + i)) :
    extract px row col mw = extract px' row col mw := by
  apply Vector.ext
  intro k hk
  rw [extract_getElem _ _ _ _ _ hk, extract_getElem _ _ _ _ _ hk]
  refine sample_congr fun i hi => ?_
  rw [Nat.add_assoc]
  exact h _ (by nlinarith)

/-- The search looks at the pixels of the raster only (R135, R136). -/
theorem locate_congr {px px' : Nat → Nat → Bit} {W H : Nat}
    (h : ∀ row col, row < H → col < W → px row col = px' row col) : locate px W H = locate px' W H := by
  have test_eq (c : Candidate) (hc : c ∈ candidates W H) : candidateTest px c = candidateTest px' c := by
    obtain ⟨-, -, hrow, hcol⟩ := mem_candidates.1 hc
    rw [candidateTest, candidateTest, extract_congr fun i hi => h c.row (c.col + i) hrow (by omega)]
  rw [locate, locate, ← List.head?_filterMap, ← List.head?_filterMap,
    List.filterMap_congr fun c hc => by rw [test_eq c hc]]

/-- Two states present the same raster: capacity, width, height and the cells below `W * H`. -/
structure SameRaster (s s' : State) : Prop where
  w : s.w = s'.w
  h : s.h = s'.h
  cap : s.rasterCap = s'.rasterCap
  cells : ∀ a, a < s.w.toNat * s.h.toNat → s.memRead a = s'.memRead a

theorem SameRaster.pixel_eq {s s' : State} (hs : SameRaster s s') {row col : Nat}
    (hrow : row < s.h.toNat) (hcol : col < s.w.toNat) : s.pixel row col = s'.pixel row col := by
  have hcell : row * s.w.toNat + col < s.w.toNat * s.h.toNat := by nlinarith
  rw [State.pixel, State.pixel, hs.cells _ hcell, hs.w]

theorem SameRaster.locate_eq {s s' : State} (hs : SameRaster s s') :
    locate s.pixel s.w.toNat s.h.toNat = locate s'.pixel s'.w.toNat s'.h.toNat := by
  rw [locate_congr fun _ _ => hs.pixel_eq, hs.w, hs.h]

theorem SameRaster.geomOK_iff {s s' : State} (hs : SameRaster s s') : s.geomOK ↔ s'.geomOK := by
  unfold State.geomOK
  rw [hs.w, hs.h, hs.cap]

theorem SameRaster.rangeBad_iff {s s' : State} (hs : SameRaster s s') (hrow : s.row = s'.row)
    (hcol : s.col = s'.col) (hmw : s.mw = s'.mw) (run : Nat) : s.rangeBad run ↔ s'.rangeBad run := by
  unfold State.rangeBad
  rw [hs.w, hs.h, hs.cap, hrow, hcol, hmw]

/-- If `run` modules at the sampler's operands are in range, their pixels are the same. -/
theorem SameRaster.run_eq {s s' : State} (hs : SameRaster s s') {run : Nat} (hb : ¬ s.rangeBad run) :
    ∀ i < run * s.mw.toNat,
      s.pixel s.row.toNat (s.col.toNat + i) = s'.pixel s.row.toNat (s.col.toNat + i) := by
  intro i hi
  exact hs.pixel_eq (by omega) (by omega)

end Sys2Proof.Machine

namespace Sys2Proof.Proofs

open Sys2Proof.Machine

/-- Settles O34: each result is a function of the operands. -/
theorem codecCommandsReadOnlyTheirOperands : Obligations.CodecCommandsReadOnlyTheirOperands := by
  unfold Obligations.CodecCommandsReadOnlyTheirOperands
  intro s s' t t'
  refine ⟨fun hl hb h h' => ?_, fun hl hb h h' => ?_, fun hl hp h h' => ?_⟩
  · obtain ⟨hcode, hvalid⟩ := execVal_result h
    obtain ⟨hcode', hvalid'⟩ := execVal_result h'
    rw [hcode, hvalid, hcode', hvalid', hl, hb]
    exact ⟨rfl, rfl⟩
  · obtain ⟨hcode, hout⟩ := execEnc_result h
    obtain ⟨hcode', hout'⟩ := execEnc_result h'
    have hc : t.status.code = t'.status.code := by rw [hcode, hcode', hl, hb]
    refine ⟨hc, fun hok => ?_⟩
    obtain ⟨hpat, hlen⟩ := hout hok
    obtain ⟨hpat', hlen'⟩ := hout' (hc ▸ hok)
    exact ⟨by rw [hpat, hpat', hb], by rw [hlen, hlen']⟩
  · have hdec : dec67 s.patlen.toNat s.pat = dec67 s'.patlen.toNat s'.pat := hl ▸ dec67_congr hp
    obtain ⟨hcode, hout⟩ := execDec_result h
    obtain ⟨hcode', hout'⟩ := execDec_result h'
    have hc : t.status.code = t'.status.code := by rw [hcode, hcode', hdec]
    refine ⟨hc, fun hok => ?_⟩
    obtain ⟨d, hd, hbuf, hlen⟩ := hout hok
    obtain ⟨d', hd', hbuf', hlen'⟩ := hout' (hc ▸ hok)
    cases hd.symm.trans (hdec.trans hd')
    exact ⟨by rw [hbuf, hbuf'], by rw [hlen, hlen']⟩

/-- Settles O35: the conditions are the same, and under them the same pixels are looked at. -/
theorem rasterCommandsReadOnlyTheRaster : Obligations.RasterCommandsReadOnlyTheRaster := by
  unfold Obligations.RasterCommandsReadOnlyTheRaster
  intro s s' t t' hw hh hcap hcells
  have hs : SameRaster s s' := ⟨hw, hh, hcap, hcells⟩
  refine ⟨fun h h' => ?_, fun hrow hcol hmw => ⟨fun h h' => ?_, fun h h' => ?_⟩⟩
  · obtain ⟨hcode, hout⟩ := execLoc_result h
    obtain ⟨hcode', hout'⟩ := execLoc_result h'
    have hc : t.status.code = t'.status.code := by
      rw [hcode, hcode', hs.locate_eq, if_congr (not_congr hs.geomOK_iff) rfl rfl]
    refine ⟨hc, fun hok => ?_⟩
    obtain ⟨d, c, hl, hout⟩ := hout hok
    obtain ⟨d', c', hl', hout'⟩ := hout' (hc ▸ hok)
    cases hl.symm.trans (hs.locate_eq.trans hl')
    obtain ⟨h1, h2, h3, h4, h5⟩ := hout
    obtain ⟨h1', h2', h3', h4', h5'⟩ := hout'
    exact ⟨h1.trans h1'.symm, h2.trans h2'.symm, h3.trans h3'.symm, h4.trans h4'.symm, h5.trans h5'.symm⟩
  · obtain ⟨hcode, hout⟩ := execSmp_result h
    obtain ⟨hcode', hout'⟩ := execSmp_result h'
    have hc : t.status.code = t'.status.code := by
      rw [hcode, hcode', if_congr (hs.rangeBad_iff hrow hcol hmw _) rfl rfl]
    refine ⟨hc, fun hok => ?_⟩
    obtain ⟨hb, hbit⟩ := hout hok
    obtain ⟨-, hbit'⟩ := hout' (hc ▸ hok)
    rw [hbit, hbit', sample_congr fun i hi => hs.run_eq hb i (by omega), hrow, hcol, hmw]
  · obtain ⟨hcode, hout⟩ := execExt_result h
    obtain ⟨hcode', hout'⟩ := execExt_result h'
    have hc : t.status.code = t'.status.code := by
      rw [hcode, hcode', if_congr (hs.rangeBad_iff hrow hcol hmw _) rfl rfl]
    refine ⟨hc, fun hok => ?_⟩
    obtain ⟨hb, hpat, hlen⟩ := hout hok
    obtain ⟨-, hpat', hlen'⟩ := hout' (hc ▸ hok)
    rw [hpat, hpat', hlen, hlen', extract_congr (hs.run_eq hb), hrow, hcol, hmw]
    exact ⟨rfl, rfl⟩

end Sys2Proof.Proofs
end

section
/-! SUPPORT. Consecutive cells written by the host one by one (R66): the proof of O50. -/

namespace Sys2Proof.Machine

/-! ### Consecutive cells -/

/-- Memory after the cells `a`, `a + 1`, ... are written with the given bits, in that order. -/
def Memory.writeFrom : Memory → Nat → List Bit → Memory
  | m, _, [] => m
  | m, a, b :: rest => Memory.writeFrom (Memory.write m a b) (a + 1) rest

/-- The state after the cells `a`, `a + 1`, ... are written with the given bits. -/
def State.memWriteFrom (s : State) (a : Nat) (bits : List Bit) : State :=
  { s with ras := Memory.writeFrom s.ras a bits }

theorem memWriteFrom_cons (s : State) (a : Nat) (b : Bit) (bits : List Bit) :
    s.memWriteFrom a (b :: bits) = (s.memWrite a b).memWriteFrom (a + 1) bits := rfl

@[simp] theorem memWriteFrom_w (s : State) (a : Nat) (bits : List Bit) :
    (s.memWriteFrom a bits).w = s.w := rfl

theorem memRead_memWriteFrom_outside (s : State) {a c : Nat} {bits : List Bit}
    (h : c < a ∨ a + bits.length ≤ c) : (s.memWriteFrom a bits).memRead c = s.memRead c := by
  induction bits generalizing s a with
  | nil => rfl
  | cons b bits ih =>
    rw [List.length_cons] at h
    rw [memWriteFrom_cons, ih _ (by omega), memRead_memWrite_ne _ _ (by omega)]

theorem memRead_memWriteFrom (s : State) (a : Nat) {bits : List Bit} {i : Nat} (h : i < bits.length) :
    (s.memWriteFrom a bits).memRead (a + i) = bits[i] := by
  induction bits generalizing s a i with
  | nil => cases h
  | cons b bits ih =>
    rw [memWriteFrom_cons]
    cases i with
    | zero =>
      exact (memRead_memWriteFrom_outside _ (.inl (Nat.lt_add_one a))).trans (memRead_memWrite_same s a b)
    | succ i =>
      rw [show a + (i + 1) = a + 1 + i by omega]
      exact ih _ _ (Nat.lt_of_succ_lt_succ h)

/-! ### Loading a raster (R66) as a run -/

/-- Each pending write of a cell takes one step. -/
theorem runSteps_cellsFrom {s : State} {a : Nat} {bits : List Bit} {rest : List HostEvent}
    (hcap : a + bits.length ≤ s.rasterCap) (hp : s.pending = cellsFrom a bits ++ rest) :
    runSteps bits.length s = .next (({ s with pending := rest } : State).memWriteFrom a bits) := by
  induction bits generalizing s a with
  | nil =>
    obtain rfl : s.pending = rest := hp
    exact runSteps_zero s
  | cons b bits ih =>
    rw [List.length_cons] at hcap ⊢
    refine (runSteps_of_step
      (step_writeRas (rest := cellsFrom (a + 1) bits ++ rest) (by omega) hp)).trans ?_
    exact ih (by simp only [memWrite_rasterCap]; omega) rfl

/-- `W`, `H`, then the pixels from cell 0 on. -/
theorem runSteps_loadRaster {s : State} {width height : Nat} {pixels : List Bit} {rest : List HostEvent}
    (hw : width < 2 ^ 16) (hh : height < 2 ^ 16) (hcap : pixels.length ≤ s.rasterCap)
    (hp : s.pending = loadRaster width height pixels ++ rest) :
    runSteps (2 + pixels.length) s = .next
      (({ s with w := BitVec.ofNat 16 width, h := BitVec.ofNat 16 height, pending := rest } :
        State).memWriteFrom 0 pixels) := by
  rw [Nat.add_comm]
  refine (runSteps_of_step (step_write (r := .w) (by decide) hw hp)).trans ?_
  refine (runSteps_of_step
    (step_write (r := .h) (rest := cellsFrom 0 pixels ++ rest) (by decide) hh rfl)).trans ?_
  exact runSteps_cellsFrom (by simpa using hcap) rfl

end Sys2Proof.Machine

namespace Sys2Proof.Proofs

open Sys2Proof.Machine

/-- Settles O50: the run writes the pixels from cell 0 on, and `Pixel` looks them up by the new `W`. -/
theorem loadedRasterIsReadRowMajor : Obligations.LoadedRasterIsReadRowMajor := by
  unfold Obligations.LoadedRasterIsReadRowMajor
  intro s width height pixels rest hw hh hlen hcap hp
  refine ⟨_, runSteps_loadRaster hw hh (hlen ▸ hcap) hp, fun row col hrow hcol => ?_, fun a ha => ?_, rfl⟩
  · have hcell : row * width + col < pixels.length := by nlinarith
    have hread := memRead_memWriteFrom
      { s with w := BitVec.ofNat 16 width, h := BitVec.ofNat 16 height, pending := rest } 0 hcell
    rw [State.pixel, memWriteFrom_w, BitVec.toNat_ofNat, Nat.mod_eq_of_lt hw,
      List.getElem?_eq_getElem hcell, ← hread, Nat.zero_add]
  · rw [memRead_memWriteFrom_outside _ (.inr (by omega))]
    rfl

end Sys2Proof.Proofs
end

section
/-! SUPPORT. The code tables (R80 to R82) and what the groups of a pattern hold (R79, R83, R94): the proofs
of O12, O14 and O17. -/

namespace Sys2Proof.Machine

/-! ### The code tables (R82) -/

/-- `RTAB` is the complement of `LTAB`, element by element (R82(b)). -/
theorem rtab_eq_complement_ltab :
    ∀ (d : Digit) (j : Fin 7), (rtab[d][j]).toNat = 1 - (ltab[d][j]).toNat := by decide

/-- The first and last elements of a left code, and its odd number of ones. -/
theorem ltab_ends_and_parity :
    ∀ d : Digit, ltab[d][0] = 0 ∧ ltab[d][6] = 1 ∧ ltab[d].toList.count 1 % 2 = 1 := by decide

/-- The first and last elements of a right code, and its even number of ones. -/
theorem rtab_ends_and_parity :
    ∀ d : Digit, rtab[d][0] = 1 ∧ rtab[d][6] = 0 ∧ rtab[d].toList.count 1 % 2 = 0 := by decide

/-- Two left codes differ in two elements or more. -/
theorem two_le_ltab_distance : ∀ d e : Digit, d ≠ e →
    2 ≤ (List.finRange 7).countP fun j => decide (ltab[d][j] ≠ ltab[e][j]) := by decide

/-- No code stands in both tables, as the first elements show (R82(c)). -/
theorem ltab_ne_rtab (d e : Digit) : ltab[d] ≠ rtab[e] := by
  intro h
  have hfirst : ltab[d][0] = 0 := (ltab_ends_and_parity d).1
  rw [h, (rtab_ends_and_parity e).1] at hfirst
  exact absurd hfirst (by decide)

/-- The number a code spells in binary, its leftmost character first. -/
def codeNumber (g : Code) : Nat :=
  64 * g[0].toNat + 32 * g[1].toNat + 16 * g[2].toNat + 8 * g[3].toNat + 4 * g[4].toNat
    + 2 * g[5].toNat + g[6].toNat

/-- The group that spells a number, the way R82 goes through all 128 groups. -/
def groupOf (n : Nat) : Code := Vector.ofFn fun j : Fin 7 => BitVec.ofNat 1 (n / 2 ^ (6 - j.val))

theorem eq_groupOf_iff {n : Nat} (hn : n < 128) {g : Code} : g = groupOf n ↔ codeNumber g = n := by
  constructor
  · rintro rfl
    simp only [codeNumber, groupOf, Vector.getElem_ofFn, BitVec.toNat_ofNat]
    omega
  · rintro rfl
    have hbits : ∀ j : Fin 7, g[j].toNat < 2 := fun j => g[j].isLt
    simp only [Fin.forall_fin_succ, Fin.getElem_fin] at hbits
    apply Vector.ext
    intro j hj
    apply BitVec.eq_of_toNat_eq
    simp only [groupOf, codeNumber, Vector.getElem_ofFn, BitVec.toNat_ofNat]
    interval_cases j <;> omega

/-- The numbers that the twenty codes of the two tables spell. -/
def codeNumbers : List Nat :=
  ((List.finRange 10).map fun d => codeNumber ltab[d]) ++ (List.finRange 10).map fun d => codeNumber rtab[d]

theorem mem_codeNumbers {n : Nat} :
    n ∈ codeNumbers ↔ ∃ d : Digit, codeNumber ltab[d] = n ∨ codeNumber rtab[d] = n := by
  simp [codeNumbers, exists_or]

theorem codeNumbers_lt : ∀ n ∈ codeNumbers, n < 128 := by decide

theorem codeNumbers_nodup : codeNumbers.Nodup := by decide

/-- As many numbers below `n` are missing from a list of distinct ones as its length leaves. -/
theorem countP_range_notMem {l : List Nat} {n : Nat} (hnodup : l.Nodup) (hlt : ∀ k ∈ l, k < n) :
    (List.range n).countP (fun k => decide (k ∉ l)) = n - l.length := by
  have hsub : l.toFinset ⊆ Finset.range n := fun k hk =>
    Finset.mem_range.2 (hlt k (List.mem_toFinset.1 hk))
  calc (List.range n).countP (fun k => decide (k ∉ l))
      = (Finset.range n \ l.toFinset).card := by
        rw [List.countP_eq_length_filter, Finset.sdiff_eq_filter]
        simp only [List.mem_toFinset]
        rfl
    _ = n - l.length := by
        rw [Finset.card_sdiff_of_subset hsub, Finset.card_range, List.toFinset_card_of_nodup hnodup]

/-- Of the 128 groups, 108 are codes of neither table: all but the twenty codes (R82). -/
theorem countP_groups_without_code :
    ((List.range 128).countP fun n =>
      decide (∀ d : Digit, ltab[d] ≠ groupOf n ∧ rtab[d] ≠ groupOf n)) = 108 := by
  refine (List.countP_congr fun n hn => ?_).trans (countP_range_notMem codeNumbers_nodup codeNumbers_lt)
  simp [mem_codeNumbers, eq_groupOf_iff (List.mem_range.1 hn)]

/-! ### The parts of an encoded pattern (R79, R93) -/

/-- A slice read off a pattern that is written as a list of elements. -/
theorem slice_eq_iff_toList (p : Vector Bit 67) (off len : Nat) (h : off + len ≤ 67)
    (q : Vector Bit len) : slice p off len h = q ↔ (p.toList.drop off).take len = q.toList := by
  rw [← Vector.toList_inj]
  have : (slice p off len h).toList = (p.toList.drop off).take len := by
    apply List.ext_getElem
    · simp only [Vector.length_toList, List.length_take, List.length_drop]
      omega
    · intro j h1 h2
      simp
  rw [this]

/-- The guards of `enc67 d` stand at offsets 0, 31 and 64. -/
theorem guardsMatch_enc67 (d : Vector Digit 8) : GuardsMatch (enc67 d) := by
  rw [← guardsOK_iff]
  simp [guardsOK, slice_eq_iff_toList, enc67_toList, List.drop_append, List.drop_eq_nil_of_le]

/-- The left groups of `enc67 d` hold the `LTAB` codes of the first four digits. -/
theorem leftGroupIs_enc67 (d : Vector Digit 8) (g : Fin 4) :
    LeftGroupIs (enc67 d) g ltab[d[g.val]'(by omega)] := by
  rw [leftGroupIs_iff, slice_eq_iff_toList, enc67_toList]
  fin_cases g <;> simp [List.drop_append, List.drop_eq_nil_of_le]

/-- The right groups of `enc67 d` hold the `RTAB` codes of the last four digits. -/
theorem rightGroupIs_enc67 (d : Vector Digit 8) (g : Fin 4) :
    RightGroupIs (enc67 d) g rtab[d[4 + g.val]'(by omega)] := by
  rw [rightGroupIs_iff, slice_eq_iff_toList, enc67_toList]
  fin_cases g <;> simp [List.drop_append, List.drop_eq_nil_of_le]

/-! ### Decoding the groups (R94) -/

/-- A group holds one code. -/
theorem leftGroupIs_unique {p : Vector Bit 67} {g : Fin 4} {c c' : Code} (h : LeftGroupIs p g c)
    (h' : LeftGroupIs p g c') : c = c' :=
  ((leftGroupIs_iff p g c).1 h).symm.trans ((leftGroupIs_iff p g c').1 h')

theorem rightGroupIs_unique {p : Vector Bit 67} {g : Fin 4} {c c' : Code} (h : RightGroupIs p g c)
    (h' : RightGroupIs p g c') : c = c' :=
  ((rightGroupIs_iff p g c).1 h).symm.trans ((rightGroupIs_iff p g c').1 h')

/-- The groups decode to the digits whose `LTAB` codes stand on the left and whose `RTAB` codes stand on the
right (R83, R94). -/
theorem decodeGroups_eq_some_iff {p : Vector Bit 67} {d : Vector Digit 8} :
    decodeGroups p = some d ↔ ∀ g : Fin 4,
      LeftGroupIs p g ltab[d[g.val]'(by omega)] ∧ RightGroupIs p g rtab[d[4 + g.val]'(by omega)] := by
  simp only [decodeGroups, leftGroupIs_iff, rightGroupIs_iff, Option.bind_eq_bind,
    Option.bind_eq_some_iff, Option.pure_def, Option.some.injEq, lookupCode_eq_some ltab_injective,
    lookupCode_eq_some rtab_injective]
  constructor
  · rintro ⟨d0, h0, d1, h1, d2, h2, d3, h3, d4, h4, d5, h5, d6, h6, d7, h7, rfl⟩ g
    fin_cases g
    exacts [⟨h0.symm, h4.symm⟩, ⟨h1.symm, h5.symm⟩, ⟨h2.symm, h6.symm⟩, ⟨h3.symm, h7.symm⟩]
  · intro h
    refine ⟨d[0], (h 0).1.symm, d[1], (h 1).1.symm, d[2], (h 2).1.symm, d[3], (h 3).1.symm,
      d[4], (h 0).2.symm, d[5], (h 1).2.symm, d[6], (h 2).2.symm, d[7], (h 3).2.symm, ?_⟩
    apply Vector.ext
    intro i hi
    interval_cases i <;> rfl

theorem dec67_eq_unknownSymbolError {p : Vector Bit 67} (hguards : GuardsMatch p)
    (hgroups : decodeGroups p = none) : dec67 67 p = .unknownSymbolError := by
  simp [dec67, guardsOK_iff, hguards, hgroups]

theorem execDec_of_unknownSymbol {s : State}
    (h : dec67 s.patlen.toNat s.pat = .unknownSymbolError) :
    execDec s = .next (s.complete .unknownSymbolError) := by
  simp [execDec, h]

end Sys2Proof.Machine

namespace Sys2Proof.Proofs

open Sys2Proof.Machine

/-- Settles O12: the guards and the groups of `enc67`, each at its offset. -/
theorem encodedPatternLayout : Obligations.EncodedPatternLayout := by
  unfold Obligations.EncodedPatternLayout
  intro d
  exact ⟨guardsMatch_enc67 d, leftGroupIs_enc67 d 0, leftGroupIs_enc67 d 1, leftGroupIs_enc67 d 2,
    leftGroupIs_enc67 d 3, rightGroupIs_enc67 d 0, rightGroupIs_enc67 d 1, rightGroupIs_enc67 d 2,
    rightGroupIs_enc67 d 3⟩

/-- Settles O14: if the groups decoded, the group would hold a code of each table, and no code stands in
both. -/
theorem swappedTableCodesAreRejected : Obligations.SwappedTableCodesAreRejected := by
  unfold Obligations.SwappedTableCodesAreRejected
  intro s g d hlen hguards hswapped
  have hgroups : decodeGroups s.pat = none := by
    refine Option.eq_none_iff_forall_ne_some.2 fun e he => ?_
    obtain ⟨hleft, hright⟩ := decodeGroups_eq_some_iff.1 he g
    obtain h | h := hswapped
    · exact ltab_ne_rtab _ _ (leftGroupIs_unique hleft h)
    · exact ltab_ne_rtab _ _ (rightGroupIs_unique h hright)
  exact execDec_of_unknownSymbol (hlen ▸ dec67_eq_unknownSymbolError hguards hgroups)

/-- Settles O17, constraint by constraint; the left codes of 0 and 9 are two elements apart. -/
theorem codeTablesMeetTheirConstraints : Obligations.CodeTablesMeetTheirConstraints := by
  unfold Obligations.CodeTablesMeetTheirConstraints
  exact ⟨rtab_eq_complement_ltab, ltab_ne_rtab, ltab_injective, rtab_injective, ltab_ends_and_parity,
    rtab_ends_and_parity, countP_groups_without_code, two_le_ltab_distance, 0, 9, by decide⟩

end Sys2Proof.Proofs
end

section
/-! SUPPORT. Strings presented by the host element by element (R76): the proof of O51. -/

namespace Sys2Proof.Machine

/-! ### A string laid over a vector -/

section
variable {α : Type} {n : Nat}

/-- The vector with the elements of the list put in its places `a`, `a + 1`, ... as far as it reaches. -/
def overlay (v : Vector α n) (a : Nat) (l : List α) : Vector α n :=
  Vector.ofFn fun i : Fin n => if h : a ≤ i.val ∧ i.val - a < l.length then l[i.val - a] else v[i]

@[simp] theorem overlay_nil (v : Vector α n) (a : Nat) : overlay v a [] = v := by
  apply Vector.ext
  intro i hi
  simp [overlay]

/-- The first element is written, then the others from the next place on. -/
theorem overlay_cons (v : Vector α n) {a : Nat} (ha : a < n) (x : α) (l : List α) :
    overlay v a (x :: l) = overlay (v.set a x) (a + 1) l := by
  apply Vector.ext
  intro i hi
  simp only [overlay, Vector.getElem_ofFn, Fin.getElem_fin, List.length_cons]
  obtain hlt | rfl | hgt := Nat.lt_trichotomy i a
  · rw [dif_neg (by omega), dif_neg (by omega), Vector.getElem_set_ne _ _ (by omega)]
  · simp
  · obtain ⟨k, rfl⟩ := Nat.exists_eq_add_of_le (Nat.succ_le_of_lt hgt)
    have hle : a ≤ a + 1 + k := by omega
    have hk : a + 1 + k - a = k + 1 := by omega
    rw [Vector.getElem_set_ne _ _ hgt.ne]
    simp [hle, hk]

/-- A string presented from place 0 on: its elements up to the vector's size, then what stood there. -/
theorem overlay_take_getElem (v : Vector α n) (l : List α) (i : Fin n) :
    (overlay v 0 (l.take n))[i] = if h : i.val < l.length then l[i.val] else v[i] := by
  simp [overlay]

end

/-! ### Runs of register writes -/

/-- Two runs, one after the other. -/
theorem runSteps_add {m n : Nat} {s u : State} (h : runSteps m s = .next u) :
    runSteps (m + n) s = runSteps n u := by
  induction m generalizing s with
  | zero =>
    cases h
    rw [Nat.zero_add]
  | succ m ih =>
    obtain ⟨v, hv, hrun⟩ := runSteps_succ h
    rw [Nat.add_right_comm, runSteps_of_step hv, ih hrun]

/-! A bank of `n` registers from number `base` on: `put v p` is a state whose bank holds `v` and whose
pending list is `p`, and a write to register `base + i` puts the value in place `i`. -/
section
variable {w n base : Nat} {put : Vector (BitVec w) n → List HostEvent → State}
  (hstep : ∀ (v : Vector (BitVec w) n) (i : Fin n) (x : BitVec w) (p : List HostEvent),
    step (put v (.write (base + i.val) x.toNat :: p)) = .next (put (v.set i x) p))
include hstep

/-- Each pending write of a consecutive register takes one step. -/
theorem runSteps_writesFrom (l : List (BitVec w)) (v : Vector (BitVec w) n) (a : Nat)
    (rest : List HostEvent) (ha : a + l.length ≤ n) :
    runSteps l.length (put v (writesFrom (base + a) (l.map BitVec.toNat) ++ rest))
      = .next (put (overlay v a l) rest) := by
  induction l generalizing v a with
  | nil => simp [writesFrom]
  | cons x l ih =>
    rw [List.length_cons] at ha ⊢
    have hlt : a < n := by omega
    rw [overlay_cons v hlt]
    exact (runSteps_of_step (hstep v ⟨a, hlt⟩ x _)).trans (ih _ (a + 1) (by omega))

/-- The expansion of `wrid` and `wrpat` (R76): the string's elements up to the bank's size, then
its length. -/
theorem runSteps_present (hpending : ∀ v p, (put v p).pending = p) {r : Reg} (hr : r ≠ .cmd)
    {str : List (BitVec w)} (hfits : str.length < 2 ^ r.width) (v : Vector (BitVec w) n)
    {p rest : List HostEvent}
    (hp : p = writesFrom base ((str.take n).map BitVec.toNat) ++ [wrEvent r str.length] ++ rest) :
    runSteps (min str.length n + 1) (put v p) = .next
      (({ put (overlay v 0 (str.take n)) (wrEvent r str.length :: rest) with pending := rest } :
        State).writeReg str.length r) := by
  have hrun := runSteps_writesFrom hstep (str.take n) v 0 (wrEvent r str.length :: rest) (by simp)
  rw [List.length_take, Nat.min_comm] at hrun
  rw [hp, List.append_assoc]
  exact (runSteps_add hrun).trans (runSteps_of_step (step_write hr hfits (hpending _ _)))

end

/-- The state with another `IDBUF` and another pending list. -/
def State.withIdbuf (s : State) (v : Vector Byte 8) (p : List HostEvent) : State :=
  { s with idbuf := v, pending := p }

/-- The state with another `PAT` and another pending list. -/
def State.withPat (s : State) (v : Vector Bit 67) (p : List HostEvent) : State :=
  { s with pat := v, pending := p }

theorem step_withIdbuf (s : State) (v : Vector Byte 8) (i : Fin 8) (x : Byte) (p : List HostEvent) :
    step (s.withIdbuf v (.write (0x10 + i.val) x.toNat :: p)) = .next (s.withIdbuf (v.set i x) p) := by
  rw [step_write (r := .idbuf i) (by simp) x.isLt rfl]
  simp [State.writeReg, State.withIdbuf]

theorem step_withPat (s : State) (v : Vector Bit 67) (k : Fin 67) (x : Bit) (p : List HostEvent) :
    step (s.withPat v (.write (0x40 + k.val) x.toNat :: p)) = .next (s.withPat (v.set k x) p) := by
  rw [step_write (r := .pat k) (by simp) x.isLt rfl]
  simp [State.writeReg, State.withPat]

end Sys2Proof.Machine

namespace Sys2Proof.Proofs

open Sys2Proof.Machine

/-- Settles O51: each expansion is a run over a bank, `IDBUF` and then `PAT`, that ends with its length. -/
theorem presentedStringsReachTheRegisters : Obligations.PresentedStringsReachTheRegisters := by
  unfold Obligations.PresentedStringsReachTheRegisters
  refine ⟨fun s str rest hlen hp => ?_, fun s str rest hlen hp => ?_⟩
  · have hfits : str.length < 2 ^ 8 := Nat.lt_succ_of_le hlen
    exact ⟨_, runSteps_present (step_withIdbuf s) (fun _ _ => rfl) (r := .idlen) nofun hfits s.idbuf hp,
      by simp only [State.writeReg, State.withIdbuf], Nat.mod_eq_of_lt hfits,
      overlay_take_getElem s.idbuf str⟩
  · have hfits : str.length < 2 ^ 8 := Nat.lt_succ_of_le hlen
    exact ⟨_, runSteps_present (step_withPat s) (fun _ _ => rfl) (r := .patlen) nofun hfits s.pat hp,
      by simp only [State.writeReg, State.withPat], Nat.mod_eq_of_lt hfits,
      overlay_take_getElem s.pat str⟩

end Sys2Proof.Proofs
end

section
/-! SUPPORT. The command word (R70, R71, R73): the proofs of O1, O2 and O4. -/

namespace Sys2Proof

/-- A word is its two fields, the zero field above the opcode (R70). -/
theorem zeroField_append_opField (c : Byte) : zeroField c ++ opField c = c :=
  BitVec.extractLsb'_append_extractLsb'_eq_extractLsb' (by rfl) |>.trans (by simp)

/-- The opcode map of R71 names each command by its opcode and by no other. -/
theorem commandOf_eq_some_iff {op : BitVec 4} {i : Instr} : commandOf op = some i ↔ op = opcode i := by
  revert op
  cases i <;> decide

/-- A word selects a command exactly if it is that command's word. -/
theorem decode_eq_ok_iff {c : Byte} {i : Instr} : decode c = .ok i ↔ c = encode i := by
  constructor
  · intro h
    unfold decode at h
    split at h
    · cases h
    · rename_i hz
      split at h
      · rename_i j hj
        cases h
        rw [← zeroField_append_opField c, Decidable.not_not.1 hz, commandOf_eq_some_iff.1 hj]
        rfl
      · cases h
  · rintro rfl
    exact Machine.decode_encode i

/-- The seven command words are 1 to 7 (R71). -/
theorem exists_encode_toNat_iff {n : Nat} : (∃ i, n = (encode i).toNat) ↔ 1 ≤ n ∧ n ≤ 7 := by
  constructor
  · rintro ⟨i, rfl⟩
    cases i <;> decide
  · rintro ⟨h1, h7⟩
    interval_cases n
    exacts [⟨.chk, rfl⟩, ⟨.val, rfl⟩, ⟨.enc, rfl⟩, ⟨.dec, rfl⟩, ⟨.smp, rfl⟩, ⟨.ext, rfl⟩, ⟨.loc, rfl⟩]

/-- The words that select a command, by number (R71); all others are reserved (R73). -/
theorem exists_decode_iff {c : Byte} : (∃ i, decode c = .ok i) ↔ 1 ≤ c.toNat ∧ c.toNat ≤ 7 := by
  simp only [← exists_encode_toNat_iff, decode_eq_ok_iff, ← BitVec.toNat_inj]

end Sys2Proof

namespace Sys2Proof.Machine

/-- A reserved word is an illegal command (R73). -/
theorem runCommand_of_reserved {c : Byte} (h : ¬ ∃ i, decode c = .ok i) (s : State) :
    runCommand c s = .next (s.complete .illegalCommand) := by
  unfold runCommand
  split
  · rename_i i hd
    exact absurd ⟨i, hd⟩ h
  · rfl

end Sys2Proof.Machine

namespace Sys2Proof.Proofs

open Sys2Proof.Machine

/-- Settles O1, command by command. -/
theorem commandWordsDecodeBack : Obligations.CommandWordsDecodeBack := by
  unfold Obligations.CommandWordsDecodeBack
  intro i
  cases i with
  | chk => exact Laws.Encoding.chk
  | val => exact Laws.Encoding.val
  | enc => exact Laws.Encoding.enc
  | dec => exact Laws.Encoding.dec
  | smp => exact Laws.Encoding.smp
  | ext => exact Laws.Encoding.ext
  | loc => exact Laws.Encoding.loc

/-- Settles O2: the words that select a command are those the encoder makes, numbered 1 to 7. -/
theorem opcodeMapSelectsCommands : Obligations.OpcodeMapSelectsCommands := by
  unfold Obligations.OpcodeMapSelectsCommands
  refine ⟨fun c => ?_, decode_encode .chk, decode_encode .val, decode_encode .enc, decode_encode .dec,
    decode_encode .smp, decode_encode .ext, decode_encode .loc⟩
  rw [exists_decode_iff]
  omega

/-- Settles O4: the word selects no command, and `IllegalCommand` is a fault. -/
theorem reservedWordIsIllegalCommand : Obligations.ReservedWordIsIllegalCommand := by
  unfold Obligations.ReservedWordIsIllegalCommand
  intro s rest v hp hv hres
  have hnone : ¬ ∃ i, decode (BitVec.ofNat 8 v) = .ok i := by
    rw [exists_decode_iff, BitVec.toNat_ofNat]
    omega
  exact (step_write_cmd hv hp).trans (runCommand_of_reserved hnone _)

end Sys2Proof.Proofs
end

section
/-! SUPPORT. The codec commands on every state (R92 to R103): the proofs of O6 to O9, O11, O13, O15 and
O16. -/

namespace Sys2Proof.Machine

/-! ### The check digit (R92, R95) -/

section
variable (d0 d1 d2 d3 d4 d5 d6 : Digit)

theorem weightedSum_le : weightedSum d0 d1 d2 d3 d4 d5 d6 ≤ 135 := by
  unfold weightedSum
  omega

/-- The check digit is the one digit that brings the weighted sum to a multiple of 10. -/
theorem eq_checksum7_iff (c : Digit) :
    c = checksum7 d0 d1 d2 d3 d4 d5 d6 ↔ (weightedSum d0 d1 d2 d3 d4 d5 d6 + c.val) % 10 = 0 := by
  simp only [checksum7, Fin.ext_iff]
  omega

end

/-- The weighted sum of the digits that the first seven characters stand for (R90, R92). -/
theorem weightedSum_digitVal {buf : Vector Byte 8}
    (h : ∀ i : Fin 7, isDigitChar (buf[i.val]'(by omega))) :
    weightedSum (digitVal buf[0]) (digitVal buf[1]) (digitVal buf[2]) (digitVal buf[3])
      (digitVal buf[4]) (digitVal buf[5]) (digitVal buf[6]) = charSum buf := by
  rw [weightedSum, digitVal_val (c := buf[0]) (h 0), digitVal_val (c := buf[1]) (h 1),
    digitVal_val (c := buf[2]) (h 2), digitVal_val (c := buf[3]) (h 3),
    digitVal_val (c := buf[4]) (h 4), digitVal_val (c := buf[5]) (h 5),
    digitVal_val (c := buf[6]) (h 6)]
  rfl

@[simp] theorem digits_getElem (buf : Vector Byte 8) (i : Nat) (hi : i < 8) :
    (digits buf)[i] = digitVal buf[i] := by
  simp [digits]

/-- The checksum test, character by character (R95). -/
theorem cksumOK_digits_iff {buf : Vector Byte 8} (h : ∀ i : Fin 8, isDigitChar buf[i]) :
    cksumOK (digits buf) ↔ (charSum buf + (buf[7].toNat - 0x30)) % 10 = 0 := by
  rw [cksumOK, eq_checksum7_iff]
  simp only [digits_getElem]
  rw [weightedSum_digitVal fun i => h (i.castLE (by decide)), digitVal_val (c := buf[7]) (h 7)]

/-! ### Characters of digits (R11, R90) -/

theorem charsOf_digits {buf : Vector Byte 8} (h : ∀ i : Fin 8, isDigitChar buf[i]) :
    charsOf (digits buf) = buf := by
  apply Vector.ext
  intro i hi
  have hchar : digitChar (digitVal buf[i]) = buf[i] := digitChar_digitVal (h ⟨i, hi⟩)
  simpa [charsOf, digitChar] using hchar

/-! ### `CHK` (R96, R101) -/

theorem execChk_of_wellFormed {s : State} (h : wellFormedPrefix s.idlen s.idbuf) :
    execChk s = .next { s with
      ckd := BitVec.ofNat 4 ((10 - charSum s.idbuf % 10) % 10)
      status := { s.status with code := .ok } } := by
  rw [execChk, if_pos h, checksum7, ← weightedSum_digitVal h.2]
  rfl

theorem execChk_of_malformed {s : State} (h : ¬ wellFormedPrefix s.idlen s.idbuf) :
    execChk s = .next (s.complete .identifierFormatError) := if_neg h

section
variable {buf buf' : Vector Byte 8}
  (heq : ∀ i : Fin 7, buf[i.val]'(by omega) = buf'[i.val]'(by omega))
include heq

theorem wellFormedPrefix_congr (len : Byte) : wellFormedPrefix len buf ↔ wellFormedPrefix len buf' := by
  simp only [wellFormedPrefix, heq]

theorem charSum_congr : charSum buf = charSum buf' := by
  have h0 : buf[0] = buf'[0] := heq 0
  have h1 : buf[1] = buf'[1] := heq 1
  have h2 : buf[2] = buf'[2] := heq 2
  have h3 : buf[3] = buf'[3] := heq 3
  have h4 : buf[4] = buf'[4] := heq 4
  have h5 : buf[5] = buf'[5] := heq 5
  have h6 : buf[6] = buf'[6] := heq 6
  rw [charSum, charSum, h0, h1, h2, h3, h4, h5, h6]

end

/-! ### `VAL` (R97) -/

theorem execVal_of_malformed {s : State} (h : ¬ wellFormedId s.idlen s.idbuf) :
    execVal s = .next ((s.setValid 0).complete .identifierFormatError) := if_pos h

theorem execVal_of_checksumWrong {s : State} (h : wellFormedId s.idlen s.idbuf)
    (hc : ¬ cksumOK (digits s.idbuf)) : execVal s = .next ((s.setValid 0).complete .checksumError) := by
  rw [execVal, if_neg (not_not_intro h), if_pos hc]

theorem execVal_of_valid {s : State} (h : validId s.idlen s.idbuf) :
    execVal s = .next ((s.setValid 1).complete .ok) := by
  rw [execVal, if_neg (not_not_intro h.1), if_neg (not_not_intro h.2)]

/-! ### `ENC` (R98) -/

theorem execEnc_of_wellFormed {s : State} (h : wellFormedId s.idlen s.idbuf) :
    execEnc s = .next ((s.setPattern (enc67 (digits s.idbuf))).complete .ok) :=
  if_neg (not_not_intro h)

theorem execEnc_of_malformed {s : State} (h : ¬ wellFormedId s.idlen s.idbuf) :
    execEnc s = .next (s.complete .identifierFormatError) := if_pos h

/-! ### `DEC` (R94, R99) -/

theorem dec67_eq_structureError {len : Nat} {p : Vector Bit 67} (h : len ≠ 67 ∨ ¬ GuardsMatch p) :
    dec67 len p = .structureError := by
  by_cases hlen : len = 67
  · have hguards : ¬ guardsOK p := (guardsOK_iff p).not.2 (h.resolve_left (not_not_intro hlen))
    rw [dec67, if_neg (not_not_intro hlen), if_pos hguards]
  · rw [dec67, if_pos hlen]

theorem dec67_eq_ok {p : Vector Bit 67} {d : Vector Digit 8} (hguards : GuardsMatch p)
    (hgroups : decodeGroups p = some d) : dec67 67 p = .ok d := by
  simp [dec67, guardsOK_iff, hguards, hgroups]

/-- A group that holds no code of its table keeps the groups from decoding. -/
theorem decodeGroups_eq_none {p : Vector Bit 67} {g : Fin 4}
    (h : (∀ d : Digit, ¬ LeftGroupIs p g ltab[d]) ∨ ∀ d : Digit, ¬ RightGroupIs p g rtab[d]) :
    decodeGroups p = none := by
  refine Option.eq_none_iff_forall_ne_some.2 fun e he => ?_
  obtain ⟨hleft, hright⟩ := decodeGroups_eq_some_iff.1 he g
  exact h.elim (fun hnone => hnone _ hleft) fun hnone => hnone _ hright

/-- `dec67` undoes `enc67` (R100). -/
theorem dec67_enc67 (d : Vector Digit 8) : dec67 67 (enc67 d) = .ok d :=
  dec67_eq_ok (guardsMatch_enc67 d)
    (decodeGroups_eq_some_iff.2 fun g => ⟨leftGroupIs_enc67 d g, rightGroupIs_enc67 d g⟩)

theorem execDec_of_structureError {s : State} (h : dec67 s.patlen.toNat s.pat = .structureError) :
    execDec s = .next (s.complete .structureError) := by
  simp [execDec, h]

theorem execDec_of_ok {s : State} {d : Vector Digit 8} (hlen : s.patlen.toNat = 67)
    (h : dec67 67 s.pat = .ok d) : execDec s = .next ((s.setIdentifier d).complete .ok) := by
  simp [execDec, hlen, h]

/-- `DEC` on the state that `ENC` leaves (R100). -/
theorem execDec_of_encoded (s : State) (d : Vector Digit 8) :
    execDec ((s.setPattern (enc67 d)).complete .ok) =
      .next ((((s.setPattern (enc67 d)).complete .ok).setIdentifier d).complete .ok) :=
  execDec_of_ok rfl (dec67_enc67 d)

end Sys2Proof.Machine

namespace Sys2Proof.Proofs

open Sys2Proof.Machine

/-- Settles O15: `dec67` undoes `enc67`, and the digits of a well-formed identifier are written back as the
characters they came from. -/
theorem encThenDecRestoresTheIdentifier : Obligations.EncThenDecRestoresTheIdentifier := by
  unfold Obligations.EncThenDecRestoresTheIdentifier
  refine ⟨dec67_enc67, fun s hwf => ?_⟩
  obtain ⟨hlen, hchars⟩ := hwf
  refine ⟨_, _, execEnc_of_wellFormed ⟨hlen, hchars⟩, execDec_of_encoded s (digits s.idbuf), rfl, ?_, ?_⟩
  · exact charsOf_digits hchars
  · exact (BitVec.eq_of_toNat_eq hlen).symm

/-- Settles O7: the check digit is computed from the weighted sum of the characters. -/
theorem chkWritesTheCheckDigit : Obligations.ChkWritesTheCheckDigit := by
  unfold Obligations.ChkWritesTheCheckDigit
  exact fun s => ⟨execChk_of_wellFormed, execChk_of_malformed⟩

/-- Settles O8: the condition and the weighted sum are those of the prefix. -/
theorem chkDependsOnThePrefixOnly : Obligations.ChkDependsOnThePrefixOnly := by
  unfold Obligations.ChkDependsOnThePrefixOnly
  intro s s' t t' hlen hbuf ht ht'
  have hiff := wellFormedPrefix_congr hbuf s.idlen
  by_cases hwf : wellFormedPrefix s.idlen s.idbuf
  · cases ht.symm.trans (execChk_of_wellFormed hwf)
    cases ht'.symm.trans (execChk_of_wellFormed (hlen ▸ hiff.1 hwf))
    simp [charSum_congr hbuf]
  · cases ht.symm.trans (execChk_of_malformed hwf)
    cases ht'.symm.trans (execChk_of_malformed (hlen ▸ hiff.not.1 hwf))
    exact ⟨rfl, nofun⟩

/-- Settles O9: form, then the checksum test read off the characters. -/
theorem valJudgesFormThenChecksum : Obligations.ValJudgesFormThenChecksum := by
  unfold Obligations.ValJudgesFormThenChecksum
  refine fun s => ⟨execVal_of_malformed, fun hwf hsum => ?_, fun hwf hsum => ?_⟩
  · exact execVal_of_checksumWrong hwf ((cksumOK_digits_iff hwf.2).not.2 hsum)
  · exact execVal_of_valid ⟨hwf, (cksumOK_digits_iff hwf.2).2 hsum⟩

/-- Settles O13, outcome by outcome of `dec67`. -/
theorem decJudgesStructureThenGroups : Obligations.DecJudgesStructureThenGroups := by
  unfold Obligations.DecJudgesStructureThenGroups
  refine fun s => ⟨fun hbad => ?_, fun hlen hguards ⟨g, hnone⟩ => ?_,
    fun d hlen hguards l0 l1 l2 l3 r0 r1 r2 r3 => ?_⟩
  · exact execDec_of_structureError (dec67_eq_structureError hbad)
  · exact execDec_of_unknownSymbol
      (hlen ▸ dec67_eq_unknownSymbolError hguards (decodeGroups_eq_none hnone))
  · have hgroups : decodeGroups s.pat = some d := by
      refine decodeGroups_eq_some_iff.2 fun g => ?_
      fin_cases g
      exacts [⟨l0, r0⟩, ⟨l1, r1⟩, ⟨l2, r2⟩, ⟨l3, r3⟩]
    exact execDec_of_ok hlen (dec67_eq_ok hguards hgroups)

/-- Settles O16: what a successful `DEC` writes is well formed, so only the checksum is left to judge. -/
theorem valAfterDecJudgesOnlyTheChecksum : Obligations.ValAfterDecJudgesOnlyTheChecksum := by
  unfold Obligations.ValAfterDecJudgesOnlyTheChecksum
  intro s t ht hok
  obtain ⟨-, rfl⟩ | ⟨-, rfl⟩ | ⟨d, -, rfl⟩ := execDec_cases ht
  · cases hok
  · cases hok
  · have hwf := (setIdentifier_wellFormed s d).1
    by_cases hc : cksumOK (digits (s.setIdentifier d).idbuf)
    · exact ⟨_, execVal_of_valid ⟨hwf, hc⟩, .inl rfl⟩
    · exact ⟨_, execVal_of_checksumWrong hwf hc, .inr rfl⟩

/-- Settles O6: the formula is the definition's, bound and uniqueness are those of the weighted sum. -/
theorem checksumBringsSumToMultipleOfTen : Obligations.ChecksumBringsSumToMultipleOfTen := by
  unfold Obligations.ChecksumBringsSumToMultipleOfTen
  intro d0 d1 d2 d3 d4 d5 d6
  simp only [Nat.one_mul]
  exact ⟨rfl, weightedSum_le d0 d1 d2 d3 d4 d5 d6, eq_checksum7_iff d0 d1 d2 d3 d4 d5 d6⟩

/-- Settles O11, by the two branches of `ENC`. -/
theorem encWritesTheEncodedPattern : Obligations.EncWritesTheEncodedPattern := by
  unfold Obligations.EncWritesTheEncodedPattern
  exact fun s => ⟨execEnc_of_wellFormed, execEnc_of_malformed⟩

end Sys2Proof.Proofs
end

section
/-! SUPPORT. The sampler (R120 to R125): majorities, runs that cross from one module to the next, the
modules of a rendered row, and the commands on every state: the proofs of O18 to O22. -/

namespace Sys2Proof.Machine

/-! ### The threshold (R120, R124) -/

theorem sample_eq_one_iff_majorityBlack {px : Nat → Nat → Bit} {row col mw : Nat} :
    sample px row col mw = 1 ↔ MajorityBlack px row col mw :=
  sample_eq_one.trans (majorityBlack_iff px row col mw).symm

theorem sample_eq_zero {px : Nat → Nat → Bit} {row col mw : Nat} :
    sample px row col mw = 0 ↔ blackCount px row col mw ≤ mw / 2 := by
  unfold sample
  split <;> simp_all

/-! ### A run that crosses from one module to the next (R125) -/

/-- A raster whose rows are `a` below column `j` and `b` from there on. -/
def twoModules (j : Nat) (a b : Bit) (_row col : Nat) : Bit := if col < j then a else b

theorem twoModules_run {j : Nat} {a b : Bit} (row i : Nat) :
    twoModules j a b row (0 + i) = if i < j then a else b := by
  rw [Nat.zero_add, twoModules]

section
variable {px : Nat → Nat → Bit} {row col w j : Nat}

theorem blackCount_blackThenWhite (hj : j ≤ w)
    (h : ∀ i < w, px row (col + i) = if i < j then 1 else 0) : blackCount px row col w = j :=
  blackCount_split hj h

theorem sample_blackThenWhite (hj : j ≤ w)
    (h : ∀ i < w, px row (col + i) = if i < j then 1 else 0) :
    sample px row col w = 0 ↔ j ≤ w / 2 := by
  rw [sample_eq_zero, blackCount_blackThenWhite hj h]

theorem sample_whiteThenBlack (hj : j ≤ w)
    (h : ∀ i < w, px row (col + i) = if i < j then 0 else 1) :
    sample px row col w = 1 ↔ w / 2 < w - j := by
  rw [sample_eq_one, blackCount_split hj h, if_neg (by decide), if_pos rfl, Nat.zero_add]

/-- A run that starts at most `(w-1) div 2` pixels early reads as the module it mostly lies in. -/
theorem sample_of_shift_le {a b : Bit} (hw : 1 ≤ w) (hj : j ≤ (w - 1) / 2)
    (h : ∀ i < w, px row (col + i) = if i < j then a else b) : sample px row col w = b := by
  have hcount := blackCount_split (by omega) h
  obtain rfl | rfl := b.eq_zero_or_eq_one
  · have hle : blackCount px row col w ≤ j := by
      rw [hcount]
      split <;> simp
    exact sample_eq_zero.2 (by omega)
  · have hge : w - j ≤ blackCount px row col w := by
      simp [hcount]
    exact sample_eq_one.2 (by omega)

end

/-! ### The modules of a rendered row (R67) -/

/-- The bit shown just left of module `k` (R67): that of module `k - 1`, or the margin's. -/
def bitLeftOf (p : Vector Bit 67) (k : Nat) (hk : k < 67) : Bit := if k = 0 then 0 else p[k - 1]

section
variable (p : Vector Bit 67) {w m h vm row : Nat} (htop : vm ≤ row) (hbot : row < vm + h)
include htop hbot

theorem renderPixel_margin {col : Nat} (hcol : col < m) : renderPixel p w m h vm row col = 0 := by
  rw [renderPixel, if_neg (by omega), if_pos (.inl hcol)]

theorem renderPixel_module {k i : Nat} (hk : k < 67) (hi : i < w) :
    renderPixel p w m h vm row (m + k * w + i) = p[k] := by
  have hmodule : (m + k * w + i - m) / w = k := by
    rw [Nat.add_assoc, Nat.add_sub_cancel_left, Nat.add_comm, Nat.add_mul_div_right _ _ (by omega),
      Nat.div_eq_of_lt hi, Nat.zero_add]
  have hend : k * w + i < 67 * w := by nlinarith
  rw [renderPixel, if_neg (by omega), if_neg (by omega)]
  simp only [hmodule, hk, ↓reduceDIte]

/-- The `e` columns just left of a module are the module's before it, or the margin. -/
theorem renderPixel_left_of_module {k e i : Nat} (hk : k < 67) (hw : e ≤ w) (hm : e ≤ m) (hi : i < e) :
    renderPixel p w m h vm row (m - e + k * w + i) = bitLeftOf p k hk := by
  cases k with
  | zero => exact renderPixel_margin p htop hbot (by omega)
  | succ k =>
    have hcol : m - e + (k + 1) * w + i = m + k * w + (w - e + i) := by
      rw [Nat.succ_mul]
      omega
    rw [hcol, renderPixel_module p htop hbot (by omega) (by omega)]
    rfl

/-- Each run of a reading that starts `e` columns early crosses from one module into the next. -/
theorem renderPixel_shifted_run {k e i : Nat} (hk : k < 67) (hw : e ≤ w) (hm : e ≤ m) (hi : i < w) :
    renderPixel p w m h vm row (m - e + k * w + i) =
      if i < e then bitLeftOf p k hk else p[k] := by
  split
  · next hlt => exact renderPixel_left_of_module p htop hbot hk hw hm hlt
  · have hcol : m - e + k * w + i = m + k * w + (i - e) := by omega
    rw [hcol, renderPixel_module p htop hbot hk (by omega)]

end

/-! ### `SMP` (R122) and `EXT` (R123) -/

section
variable {s : State}

theorem not_rangeBad {run : Nat} (hmw : 1 ≤ s.mw.toNat) (hrow : s.row.toNat < s.h.toNat)
    (hcol : s.col.toNat + run * s.mw.toNat ≤ s.w.toNat) (hcap : s.w.toNat * s.h.toNat ≤ s.rasterCap) :
    ¬ s.rangeBad run := by
  unfold State.rangeBad
  omega

theorem rangeBad_one_iff : s.rangeBad 1 ↔ s.mw.toNat = 0 ∨ s.h.toNat ≤ s.row.toNat ∨
    s.w.toNat < s.col.toNat + s.mw.toNat ∨ s.rasterCap < s.w.toNat * s.h.toNat := by
  rw [State.rangeBad, Nat.one_mul]

theorem execSmp_of_inRange (h : ¬ s.rangeBad 1) :
    execSmp s = .next ((s.setBit (sample s.pixel s.row.toNat s.col.toNat s.mw.toNat)).complete .ok) :=
  if_neg h

theorem execSmp_of_rangeBad (h : s.rangeBad 1) : execSmp s = .next (s.complete .rangeError) := if_pos h

theorem execExt_of_inRange (h : ¬ s.rangeBad 67) :
    execExt s =
      .next ((s.setPattern (extract s.pixel s.row.toNat s.col.toNat s.mw.toNat)).complete .ok) :=
  if_neg h

theorem execExt_of_rangeBad (h : s.rangeBad 67) : execExt s = .next (s.complete .rangeError) := if_pos h

end

end Sys2Proof.Machine

namespace Sys2Proof.Proofs

open Sys2Proof.Machine

/-- Settles O22: run `k` of the shifted reading lies in module `k` but for its first `e` pixels. -/
theorem renderedSymbolReadsFromShiftedStart : Obligations.RenderedSymbolReadsFromShiftedStart := by
  unfold Obligations.RenderedSymbolReadsFromShiftedStart
  intro d w m h vm row e hw he hm htop hbot
  apply Vector.ext
  intro k hk
  rw [extract_getElem _ _ _ _ _ hk]
  exact sample_of_shift_le hw he fun i hi =>
    renderPixel_shifted_run (enc67 d) htop hbot hk (by omega) hm hi

/-- Settles O21: the bound follows from a black module before a white one and a white one before a black
one, which together leave no greater shift (R125). -/
theorem majorityToleratesShift : Obligations.MajorityToleratesShift := by
  unfold Obligations.MajorityToleratesShift
  intro w j hw hj
  constructor
  · intro hreads
    have hwhite : j ≤ w / 2 := (sample_blackThenWhite hj.le fun i _ => twoModules_run 0 i).1
      (hreads 1 0 (twoModules j 1 0) 0 0 fun i _ => twoModules_run 0 i)
    have hblack : w / 2 < w - j := (sample_whiteThenBlack hj.le fun i _ => twoModules_run 0 i).1
      (hreads 0 1 (twoModules j 0 1) 0 0 fun i _ => twoModules_run 0 i)
    omega
  · exact fun hle a b px row col hrun => sample_of_shift_le hw hle hrun

/-- Settles O18: in range the bit is the run's sample; out of range only `STATUS` is written. -/
theorem smpWritesTheMajorityOfItsRun : Obligations.SmpWritesTheMajorityOfItsRun := by
  unfold Obligations.SmpWritesTheMajorityOfItsRun
  refine fun s => ⟨fun hmw hrow hcol hcap => ?_, fun hbad => execSmp_of_rangeBad (rangeBad_one_iff.2 hbad)⟩
  refine ⟨sample s.pixel s.row.toNat s.col.toNat s.mw.toNat, execSmp_of_inRange ?_, ?_⟩
  · exact not_rangeBad hmw hrow (by omega) hcap
  · exact sample_eq_one_iff_majorityBlack

/-- Settles O19: in range element `k` is the sample of run `k`; out of range only `STATUS` is written. -/
theorem extTakesSixtySevenAdjacentSamples : Obligations.ExtTakesSixtySevenAdjacentSamples := by
  unfold Obligations.ExtTakesSixtySevenAdjacentSamples
  refine fun s => ⟨fun hmw hrow hcol hcap => ?_, execExt_of_rangeBad⟩
  refine ⟨extract s.pixel s.row.toNat s.col.toNat s.mw.toNat, execExt_of_inRange ?_, fun k => ?_⟩
  · exact not_rangeBad hmw hrow hcol hcap
  · rw [Fin.getElem_fin, extract_getElem]
    exact sample_eq_one_iff_majorityBlack

/-- Settles O20: the threshold is the definition's; both examples are two black pixels before white ones. -/
theorem sampleIsStrictMajority : Obligations.SampleIsStrictMajority := by
  unfold Obligations.SampleIsStrictMajority
  refine ⟨fun px row col w => sample_eq_one_iff_majorityBlack, fun px h0 h1 h2 => ?_,
    fun px h0 h1 h2 h3 => ?_⟩
  · have hcount : blackCount px 0 0 3 = 2 := by
      refine blackCount_blackThenWhite (by decide) fun i hi => ?_
      interval_cases i
      exacts [h0, h1, h2]
    rw [sample_eq_one, hcount]
    decide
  · have hcount : blackCount px 0 0 4 = 2 := by
      refine blackCount_blackThenWhite (by decide) fun i hi => ?_
      interval_cases i
      exacts [h0, h1, h2, h3]
    rw [sample_eq_zero, hcount]

end Sys2Proof.Proofs
end

section
/-! SUPPORT. The search of the locator (R135 to R139): the candidates in their order, the first match, and
`LOC` on every state: the proofs of O23 to O26. -/

namespace Sys2Proof.Machine

/-! ### The order of the candidates (R135) -/

theorem precedes_asymm {a b : Candidate} (h : Precedes a b) : ¬ Precedes b a := by
  unfold Precedes at *
  omega

theorem precedes_irrefl (a : Candidate) : ¬ Precedes a a := fun h => precedes_asymm h h

theorem candidates_pairwise_precedes (W H : Nat) : (candidates W H).Pairwise Precedes := by
  refine List.pairwise_flatMap.2 ⟨fun i _ => List.pairwise_flatMap.2 ⟨fun row _ => ?_, ?_⟩, ?_⟩
  · exact List.pairwise_map.2 (List.pairwise_lt_range.imp fun hcol => .inr ⟨rfl, .inr ⟨rfl, hcol⟩⟩)
  · refine List.pairwise_lt_range.imp fun hrow c hc c' hc' => ?_
    obtain ⟨col, -, rfl⟩ := List.mem_map.1 hc
    obtain ⟨col', -, rfl⟩ := List.mem_map.1 hc'
    exact .inr ⟨rfl, .inl hrow⟩
  · refine List.pairwise_lt_range.imp fun hmw c hc c' hc' => ?_
    obtain ⟨row, -, hc⟩ := List.mem_flatMap.1 hc
    obtain ⟨row', -, hc'⟩ := List.mem_flatMap.1 hc'
    obtain ⟨col, -, rfl⟩ := List.mem_map.1 hc
    obtain ⟨col', -, rfl⟩ := List.mem_map.1 hc'
    exact .inl (Nat.succ_lt_succ hmw)

theorem candidates_length (W H : Nat) : (candidates W H).length =
    ((List.range (W / 67)).map fun i => H * (W - 67 * (i + 1) + 1)).sum := by
  simp [candidates, List.length_flatMap]

theorem not_isCandidate_of_degenerate {W H : Nat} (h : W < 67 ∨ H = 0) (c : Candidate) :
    ¬ IsCandidate W H c := by
  rintro ⟨hmw, hw, hrow, -⟩
  omega

theorem candidates_eq_nil {W H : Nat} (h : W < 67 ∨ H = 0) : candidates W H = [] :=
  List.eq_nil_iff_forall_not_mem.2 fun c hc => not_isCandidate_of_degenerate h c (mem_candidates.1 hc)

/-! ### The first match (R136, R137) -/

section
variable {px : Nat → Nat → Bit} {W H : Nat} {c : Candidate} {d : Vector Digit 8}

theorem candidateTest_eq_none_iff : candidateTest px c = none ↔ ∀ d, ¬ Matches px c d := by
  simp only [Option.eq_none_iff_forall_ne_some, ne_eq, candidateTest_eq_some, Matches]

theorem locate_eq_none_iff :
    locate px W H = none ↔ ∀ c d, IsCandidate W H c → ¬ Matches px c d := by
  simp only [locate_eq_none, mem_candidates, candidateTest_eq_none_iff]
  exact ⟨fun h c d hc => h c hc d, fun h c hc d => h c d hc⟩

/-- The candidates that precede one of them are those listed before it. -/
theorem mem_before_iff_precedes {before after : List Candidate}
    (hl : candidates W H = before ++ c :: after) {c' : Candidate} :
    c' ∈ before ↔ IsCandidate W H c' ∧ Precedes c' c := by
  have hpair := candidates_pairwise_precedes W H
  rw [hl] at hpair
  obtain ⟨-, hafter, hbefore⟩ := List.pairwise_append.1 hpair
  rw [← mem_candidates, hl]
  constructor
  · exact fun hc' => ⟨List.mem_append_left _ hc', hbefore c' hc' c List.mem_cons_self⟩
  · rintro ⟨hc', hp⟩
    obtain hc' | hc' := List.mem_append.1 hc'
    · exact hc'
    · obtain rfl | hc' := List.mem_cons.1 hc'
      · exact absurd hp (precedes_irrefl c')
      · exact absurd hp (precedes_asymm (List.rel_of_pairwise_cons hafter hc'))

/-- What is located is the match before which no candidate matches (R137). -/
theorem locate_eq_some_iff : locate px W H = some (d, c) ↔
    IsCandidate W H c ∧ Matches px c d ∧
      ∀ c' d', IsCandidate W H c' → Precedes c' c → ¬ Matches px c' d' := by
  rw [locate_eq_some, candidateTest_eq_some]
  constructor
  · rintro ⟨before, after, hl, hm, hnone⟩
    refine ⟨mem_candidates.1 (by simp [hl]), hm, fun c' d' hc' hp => ?_⟩
    exact candidateTest_eq_none_iff.1 (hnone c' ((mem_before_iff_precedes hl).2 ⟨hc', hp⟩)) d'
  · rintro ⟨hc, hm, hfirst⟩
    obtain ⟨before, after, hl⟩ := List.append_of_mem (mem_candidates.2 hc)
    refine ⟨before, after, hl, hm, fun c' hc' => candidateTest_eq_none_iff.2 fun d' => ?_⟩
    obtain ⟨hcand, hp⟩ := (mem_before_iff_precedes hl).1 hc'
    exact hfirst c' d' hcand hp

end

/-! ### `LOC` (R138) -/

section
variable {s : State} {c : Candidate} {d : Vector Digit 8}

theorem execLoc_of_geomBad (h : ¬ s.geomOK) : execLoc s = .next (s.complete .rangeError) := if_pos h

theorem execLoc_of_locate_none (hgeom : s.geomOK) (h : locate s.pixel s.w.toNat s.h.toNat = none) :
    execLoc s = .next (s.complete .notFoundError) := by
  rw [execLoc, if_neg (not_not_intro hgeom), h]

theorem execLoc_of_locate_some (hgeom : s.geomOK)
    (h : locate s.pixel s.w.toNat s.h.toNat = some (d, c)) :
    execLoc s = .next (((s.setIdentifier d).setMatch c.mw c.row c.col).complete .ok) := by
  rw [execLoc, if_neg (not_not_intro hgeom), h]

/-- The identifier of digits that pass the checksum test is valid (R95). -/
theorem setIdentifier_valid (hd : cksumOK d) :
    validId (s.setIdentifier d).idlen (s.setIdentifier d).idbuf := by
  obtain ⟨hwf, hdigits⟩ := setIdentifier_wellFormed s d
  exact ⟨hwf, by rwa [hdigits]⟩

/-- The sampler's operands set to a candidate, as the host sets them from the match registers. -/
def State.aimedAt (s : State) (c : Candidate) : State :=
  ((s.writeReg c.mw .mw).writeReg c.row .row).writeReg c.col .col

@[simp] theorem aimedAt_w (s : State) (c : Candidate) : (s.aimedAt c).w = s.w := rfl
@[simp] theorem aimedAt_h (s : State) (c : Candidate) : (s.aimedAt c).h = s.h := rfl
@[simp] theorem aimedAt_mw (s : State) (c : Candidate) :
    (s.aimedAt c).mw = BitVec.ofNat 16 c.mw := rfl
@[simp] theorem aimedAt_row (s : State) (c : Candidate) :
    (s.aimedAt c).row = BitVec.ofNat 16 c.row := rfl
@[simp] theorem aimedAt_col (s : State) (c : Candidate) :
    (s.aimedAt c).col = BitVec.ofNat 16 c.col := rfl
@[simp] theorem aimedAt_pixel (s : State) (c : Candidate) : (s.aimedAt c).pixel = s.pixel := rfl

/-- Aimed at a candidate of the raster, `EXT` takes the pattern that the candidate test looks at. -/
theorem execExt_aimedAt (hgeom : s.geomOK) (hc : IsCandidate s.w.toNat s.h.toNat c) :
    execExt (s.aimedAt c) =
      .next (((s.aimedAt c).setPattern (extract s.pixel c.row c.col c.mw)).complete .ok) := by
  obtain ⟨emw, erow, ecol⟩ := isCandidate_toNat_ofNat hc
  obtain ⟨hmw, -, hrow, hcol⟩ := hc
  have hbad : ¬ (s.aimedAt c).rangeBad 67 := by
    apply not_rangeBad <;> simp only [aimedAt_w, aimedAt_h, aimedAt_mw, aimedAt_row, aimedAt_col,
      emw, erow, ecol]
    exacts [hmw, hrow, hcol, hgeom]
  rw [execExt_of_inRange hbad]
  simp only [aimedAt_mw, aimedAt_row, aimedAt_col, aimedAt_pixel, emw, erow, ecol]

/-- If the pattern at a candidate decodes, `EXT` there and then `DEC` write its digits. -/
theorem execExt_execDec_aimedAt (hgeom : s.geomOK) (hc : IsCandidate s.w.toNat s.h.toNat c)
    (hdec : dec67 67 (extract s.pixel c.row c.col c.mw) = .ok d) :
    ∃ u v, execExt (s.aimedAt c) = .next u ∧ execDec u = .next v ∧ u.status.code = .ok ∧
      v.status.code = .ok ∧ v.idbuf = charsOf d ∧ v.idlen = 8 :=
  ⟨_, _, execExt_aimedAt hgeom hc, execDec_of_ok rfl hdec, rfl, rfl, rfl, rfl⟩

end

end Sys2Proof.Machine

namespace Sys2Proof.Proofs

open Sys2Proof.Machine

/-- Settles O23, from the three nested enumerations. -/
theorem candidatesAreEnumeratedInOrder : Obligations.CandidatesAreEnumeratedInOrder := by
  unfold Obligations.CandidatesAreEnumeratedInOrder
  exact fun W H => ⟨fun c => mem_candidates, candidates_pairwise_precedes W H, candidates_length W H,
    candidates_eq_nil⟩

/-- Settles O24, outcome by outcome of the search. -/
theorem locFindsTheFirstMatch : Obligations.LocFindsTheFirstMatch := by
  unfold Obligations.LocFindsTheFirstMatch
  refine fun s => ⟨fun hcap => ?_, fun hgeom hnone => ?_, fun hgeom c d hc hm hfirst => ?_⟩
  · exact execLoc_of_geomBad (not_le.2 hcap)
  · exact execLoc_of_locate_none hgeom (locate_eq_none_iff.2 hnone)
  · exact execLoc_of_locate_some hgeom (locate_eq_some_iff.2 ⟨hc, hm, hfirst⟩)

/-- Settles O25: without candidates there is no match. -/
theorem locOnDegenerateRasterFindsNothing : Obligations.LocOnDegenerateRasterFindsNothing := by
  unfold Obligations.LocOnDegenerateRasterFindsNothing
  intro s hdeg hgeom
  exact execLoc_of_locate_none hgeom
    (locate_eq_none_iff.2 fun c _ hc => absurd hc (not_isCandidate_of_degenerate hdeg c))

/-- Settles O26: the reported position is that of a candidate, so `EXT` takes the pattern that matched. -/
theorem locResultIsValidAndReproducible : Obligations.LocResultIsValidAndReproducible := by
  unfold Obligations.LocResultIsValidAndReproducible
  intro s t ht hok
  obtain ⟨-, rfl⟩ | ⟨-, -, rfl⟩ | ⟨hgeom, d, c, hl, rfl⟩ := execLoc_cases ht
  · cases hok
  · cases hok
  · obtain ⟨hc, ⟨hdec, hsum⟩, -⟩ := locate_eq_some_iff.1 hl
    obtain ⟨emw, erow, ecol⟩ := isCandidate_toNat_ofNat hc
    refine ⟨setIdentifier_valid (s := s) hsum, ?_⟩
    simp only [complete_lmw, complete_lrow, complete_lcol, setMatch_lmw, setMatch_lrow, setMatch_lcol,
      emw, erow, ecol]
    exact execExt_execDec_aimedAt
      (s := ((s.setIdentifier d).setMatch c.mw c.row c.col).complete .ok) hgeom hc hdec

end Sys2Proof.Proofs
end

section
/-! SUPPORT. `LOC` on a rendered symbol (R141): the proofs of O27 to O29.

The argument: a run no wider than a module crosses at most one boundary between modules, so it reads as the
conjunction of its two middle columns. Every encoded pattern changes colour 42 times, so a reading that
decodes must start in the first module and end in the last. Its steps are no wider than a module, and so
its run `k` is centred in module `k`, and it reads the symbol itself. -/

namespace Sys2Proof.Machine

/-! ### Changes of colour along a row -/

/-- How often the colour changes from position 0 to position `n`. -/
def changes (f : Nat → Bit) : Nat → Nat
  | 0 => 0
  | n + 1 => changes f n + if f n = f (n + 1) then 0 else 1

theorem changes_mono (f : Nat → Bit) : Monotone (changes f) :=
  monotone_nat_of_le_succ fun _ => Nat.le_add_right _ _

theorem changes_add (f : Nat → Bit) (a n : Nat) :
    changes f (a + n) = changes f a + changes (fun k => f (a + k)) n := by
  induction n with
  | zero => rfl
  | succ n ih => rw [← Nat.add_assoc, changes, ih, changes, Nat.add_assoc, Nat.add_assoc]

theorem changes_congr {f g : Nat → Bit} {n : Nat} (h : ∀ k ≤ n, f k = g k) :
    changes f n = changes g n := by
  induction n with
  | zero => rfl
  | succ n ih =>
    rw [changes, changes, ih fun k hk => h k (by omega), h n (by omega), h (n + 1) le_rfl]

theorem changes_lt_of_ne {f : Nat → Bit} {a b : Nat} (hab : a ≤ b) (hne : f a ≠ f b) :
    changes f a < changes f b := by
  induction b, hab using Nat.le_induction with
  | base => exact absurd rfl hne
  | succ b hab ih =>
    rw [changes]
    split
    · next heq => exact ih (heq ▸ hne)
    · exact Nat.lt_succ_of_le (changes_mono f hab)

/-- What is read at positions that never go back changes at most as often as what it is read from. -/
theorem changes_comp_le (f : Nat → Bit) {pos : Nat → Nat} (hpos : Monotone pos) (n : Nat) :
    changes (f ∘ pos) n + changes f (pos 0) ≤ changes f (pos n) := by
  induction n with
  | zero => exact (Nat.zero_add _).le
  | succ n ih =>
    have hstep : pos n ≤ pos (n + 1) := hpos n.le_succ
    have hle := changes_mono f hstep
    rw [changes]
    split
    · omega
    · next hne =>
      have hlt := changes_lt_of_ne hstep hne
      omega

/-! ### The changes of an encoded pattern (R79) -/

/-- Element `k` of a pattern; 0 beyond its end, as in the margin (R67). -/
def elementAt (p : Vector Bit 67) (k : Nat) : Bit := if h : k < 67 then p[k] else 0

theorem elementAt_eq (p : Vector Bit 67) {k : Nat} (hk : k < 67) : elementAt p k = p[k] := dif_pos hk

/-- A code and the element before it. -/
def codeAfter (before : Bit) (code : Code) : Nat → Bit
  | 0 => before
  | k + 1 => if h : k < 7 then code[k] else 0

theorem changes_codeAfter_ltab : ∀ d : Digit, changes (codeAfter 1 ltab[d]) 7 = 4 := by decide

theorem changes_codeAfter_rtab : ∀ d : Digit, changes (codeAfter 0 rtab[d]) 7 = 4 := by decide

/-- A group adds the changes of its code after the element `a - 1` before it. -/
theorem changes_group {p : Vector Bit 67} {a : Nat} {code : Code} (ha : a + 7 ≤ 67) (hpos : 1 ≤ a)
    (hcode : ∀ j : Fin 7, p[a + j.val] = code[j]) :
    changes (elementAt p) (a + 6) =
      changes (elementAt p) (a - 1) + changes (codeAfter (elementAt p (a - 1)) code) 7 := by
  obtain ⟨b, rfl⟩ := Nat.exists_eq_add_of_le' hpos
  rw [Nat.add_sub_cancel, Nat.add_assoc, changes_add]
  congr 1
  refine changes_congr fun k hk => ?_
  cases k with
  | zero => rfl
  | succ k =>
    have hk : k < 7 := by omega
    rw [codeAfter, dif_pos hk, ← show p[b + 1 + k] = code[k] from hcode ⟨k, hk⟩, Nat.add_comm k,
      ← Nat.add_assoc]
    exact elementAt_eq p (by omega)

section
variable (d : Vector Digit 8)

theorem changes_enc67_left : ∀ g ≤ 4,
    changes (elementAt (enc67 d)) (2 + 7 * g) = 2 + 4 * g ∧ elementAt (enc67 d) (2 + 7 * g) = 1 := by
  intro g hg
  induction g with
  | zero =>
    obtain ⟨h0, h1, h2, -⟩ := guardsMatch_enc67 d
    simp [changes, elementAt, h0, h1, h2]
  | succ g ih =>
    obtain ⟨hcount, hblack⟩ := ih (by omega)
    have hgroup : LeftGroupIs (enc67 d) ⟨g, hg⟩ ltab[d[g]] := leftGroupIs_enc67 d ⟨g, hg⟩
    have hlast := (hgroup 6).trans (ltab_ends_and_parity _).2.1
    have hadd := changes_group (by omega) (by omega) hgroup
    rw [show 3 + 7 * g - 1 = 2 + 7 * g by omega, hblack, changes_codeAfter_ltab, hcount] at hadd
    rw [show 2 + 7 * (g + 1) = 3 + 7 * g + 6 by omega]
    exact ⟨by omega, (elementAt_eq _ (by omega)).trans hlast⟩

theorem changes_enc67_right : ∀ g ≤ 4,
    changes (elementAt (enc67 d)) (35 + 7 * g) = 23 + 4 * g ∧
      elementAt (enc67 d) (35 + 7 * g) = 0 := by
  intro g hg
  induction g with
  | zero =>
    obtain ⟨-, -, -, h31, h32, h33, h34, h35, -⟩ := guardsMatch_enc67 d
    obtain ⟨hcount, hblack⟩ := changes_enc67_left d 4 le_rfl
    refine ⟨?_, (elementAt_eq _ (by decide)).trans h35⟩
    rw [show 35 + 7 * 0 = 2 + 7 * 4 + 5 from rfl, changes_add, hcount]
    simp only [changes, Nat.add_zero, hblack]
    simp [elementAt, h31, h32, h33, h34, h35]
  | succ g ih =>
    obtain ⟨hcount, hwhite⟩ := ih (by omega)
    have hgroup : RightGroupIs (enc67 d) ⟨g, hg⟩ rtab[d[4 + g]] := rightGroupIs_enc67 d ⟨g, hg⟩
    have hlast := (hgroup 6).trans (rtab_ends_and_parity _).2.1
    have hadd := changes_group (by omega) (by omega) hgroup
    rw [show 36 + 7 * g - 1 = 35 + 7 * g by omega, hwhite, changes_codeAfter_rtab, hcount] at hadd
    rw [show 35 + 7 * (g + 1) = 36 + 7 * g + 6 by omega]
    exact ⟨by omega, (elementAt_eq _ (by omega)).trans hlast⟩

/-- Every encoded pattern changes colour 42 times, the first time after its first element and the last time
before its last. -/
theorem changes_enc67 : changes (elementAt (enc67 d)) 1 = 1 ∧
    changes (elementAt (enc67 d)) 65 = 41 ∧ changes (elementAt (enc67 d)) 66 = 42 := by
  obtain ⟨h0, h1, -, -, -, -, -, -, h64, h65, h66⟩ := guardsMatch_enc67 d
  obtain ⟨hcount, hwhite⟩ := changes_enc67_right d 4 le_rfl
  refine ⟨by simp [changes, elementAt, h0, h1], ?_, ?_⟩
  · rw [show 65 = 35 + 7 * 4 + 2 from rfl, changes_add, hcount]
    simp only [changes, Nat.add_zero, hwhite]
    simp [elementAt, h64, h65]
  · rw [show 66 = 35 + 7 * 4 + 3 from rfl, changes_add, hcount]
    simp only [changes, Nat.add_zero, hwhite]
    simp [elementAt, h64, h65, h66]

end

/-- If an encoded pattern is read off the modules of a symbol, in positions that never go back, then the
first is read in the first module and the last in the last: between any others there are too few changes. -/
theorem ends_of_reading (d e : Vector Digit 8) {pos : Nat → Nat} (hpos : Monotone pos)
    (hread : ∀ k < 67, elementAt (enc67 d) (pos k) = elementAt (enc67 e) k) :
    pos 0 = 0 ∧ pos 66 = 66 := by
  obtain ⟨hfirst, hlast, hall⟩ := changes_enc67 d
  obtain ⟨-, -, hall'⟩ := changes_enc67 e
  obtain ⟨-, -, -, -, -, -, -, -, -, -, hend⟩ := guardsMatch_enc67 e
  have hcount : changes (elementAt (enc67 d) ∘ pos) 66 = 42 :=
    (changes_congr fun k hk => hread k (by omega)).trans hall'
  have hle := changes_comp_le (elementAt (enc67 d)) hpos 66
  have hin : pos 66 < 67 := by
    by_contra hout
    have hblack := hread 66 (by decide)
    rw [elementAt, dif_neg hout, elementAt_eq _ (by decide), hend] at hblack
    exact absurd hblack (by decide)
  have htop : changes (elementAt (enc67 d)) (pos 66) ≤ 42 := hall ▸ changes_mono _ (by omega)
  constructor
  · by_contra hne
    have := changes_mono (elementAt (enc67 d)) (show 1 ≤ pos 0 by omega)
    omega
  · by_contra hne
    have := changes_mono (elementAt (enc67 d)) (show pos 66 ≤ 65 by omega)
    omega

/-! ### A run no wider than a module (R120, R67) -/

/-- A run that changes colour at most once reads as the conjunction of its two middle pixels. -/
theorem sample_eq_middle {px : Nat → Nat → Bit} {row col v j : Nat} {a b : Bit} (hv : 1 ≤ v)
    (hj : j ≤ v) (h : ∀ i < v, px row (col + i) = if i < j then a else b) :
    sample px row col v = px row (col + (v - 1) / 2) &&& px row (col + v / 2) := by
  rw [sample, blackCount_split hj h, h _ (by omega), h _ (by omega)]
  obtain rfl | rfl := a.eq_zero_or_eq_one <;> obtain rfl | rfl := b.eq_zero_or_eq_one
  case inl.inl => simp
  case inl.inr =>
    by_cases hmid : (v - 1) / 2 < j
    · simp [hmid, show ¬ v / 2 < v - j by omega]
    · simp [hmid, show v / 2 < v - j by omega, show ¬ v / 2 < j by omega]
  case inr.inl =>
    by_cases hmid : v / 2 < j
    · simp [hmid, show (v - 1) / 2 < j by omega]
    · simp [hmid]
  case inr.inr => simp [show v / 2 < j + (v - j) by omega]

section
variable (p : Vector Bit 67) {w m h vm row : Nat} (htop : vm ≤ row) (hbot : row < vm + h)
include htop hbot

theorem renderPixel_eq_elementAt (hw : 1 ≤ w) {col : Nat} (hcol : m ≤ col) :
    renderPixel p w m h vm row col = elementAt p ((col - m) / w) := by
  have hmargin : m + 67 * w ≤ col ↔ 67 ≤ (col - m) / w := by
    rw [Nat.le_div_iff_mul_le hw]
    omega
  rw [renderPixel, if_neg (by omega), elementAt]
  split
  · rw [dif_neg (by omega)]
  · rfl

theorem renderPixel_run (hw : 1 ≤ w) (col : Nat) {v : Nat} (hv : v ≤ w) :
    ∃ j ≤ v, ∃ a b, ∀ i < v, renderPixel p w m h vm row (col + i) = if i < j then a else b := by
  obtain hcol | hcol := Nat.lt_or_ge col m
  · refine ⟨min v (m - col), Nat.min_le_left _ _, 0, elementAt p 0, fun i hi => ?_⟩
    split
    · exact renderPixel_margin p htop hbot (by omega)
    · rw [renderPixel_eq_elementAt p htop hbot hw (by omega), Nat.div_eq_of_lt (by omega)]
  · obtain ⟨x, rfl⟩ := Nat.exists_eq_add_of_le hcol
    have hr := Nat.mod_lt x hw
    have hx := Nat.div_add_mod' x w
    refine ⟨min v (w - x % w), Nat.min_le_left _ _, elementAt p (x / w), elementAt p (x / w + 1),
      fun i hi => ?_⟩
    rw [renderPixel_eq_elementAt p htop hbot hw (by omega)]
    split
    · congr 1
      exact Nat.div_eq_of_lt_le (by omega) (by rw [Nat.succ_mul]; omega)
    · congr 1
      exact Nat.div_eq_of_lt_le (by rw [Nat.succ_mul]; omega) (by rw [Nat.succ_mul, Nat.succ_mul]; omega)

end

/-! ### A reading of a rendered symbol that decodes (R67, R94) -/

theorem and_eq_one_iff : ∀ a b : Bit, a &&& b = 1 ↔ a = 1 ∧ b = 1 := by decide

theorem one_and_bit : ∀ b : Bit, 1#1 &&& b = b := by decide

/-- The two middle columns of run `k` of a reading at `col` with module width `v`. -/
def midLow (col v k : Nat) : Nat := col + k * v + (v - 1) / 2
def midHigh (col v k : Nat) : Nat := col + k * v + v / 2

theorem midLow_le_midHigh (col v k : Nat) : midLow col v k ≤ midHigh col v k := by
  unfold midLow midHigh
  omega

theorem midHigh_le_midLow_succ {v : Nat} (hv : 1 ≤ v) (col k : Nat) :
    midHigh col v k ≤ midLow col v (k + 1) := by
  rw [midLow, midHigh, Nat.succ_mul]
  omega

/-- A middle column of run `k` that shows what the run reads; at the black ends of a symbol, where both
do, the one that lies further inside. -/
def shownColumn (f : Nat → Bit) (col v k : Nat) : Nat :=
  if f (midLow col v k) = 0 ∨ k = 66 then midLow col v k else midHigh col v k

theorem shownColumn_monotone (f : Nat → Bit) {v : Nat} (hv : 1 ≤ v) (col : Nat) :
    Monotone (shownColumn f col v) := by
  refine monotone_nat_of_le_succ fun k => ?_
  have hlow : midLow col v (k + 1) ≤ shownColumn f col v (k + 1) := by
    have := midLow_le_midHigh col v (k + 1)
    unfold shownColumn
    split <;> omega
  have hhigh : shownColumn f col v k ≤ midHigh col v k := by
    have := midLow_le_midHigh col v k
    unfold shownColumn
    split <;> omega
  exact hhigh.trans ((midHigh_le_midLow_succ hv col k).trans hlow)

theorem shownColumn_shows {f : Nat → Bit} {col v k : Nat} {b : Bit}
    (hmid : f (midLow col v k) &&& f (midHigh col v k) = b) (hend : k = 66 → b = 1) :
    f (shownColumn f col v k) = b := by
  rw [shownColumn]
  split
  · next hlow =>
    obtain hlow | rfl := hlow
    · simp [hlow, ← hmid]
    · exact ((and_eq_one_iff _ _).1 (hmid.trans (hend rfl))).1.trans (hend rfl).symm
  · next hlow =>
    have hblack := (f (midLow col v k)).eq_zero_or_eq_one.resolve_left fun h => hlow (.inl h)
    rwa [hblack, one_and_bit] at hmid

section
variable {d e : Vector Digit 8} {w m h vm row col v : Nat} (htop : vm ≤ row) (hbot : row < vm + h)
  (hv : 1 ≤ v) (hvw : v ≤ w)
include htop hbot hv hvw

theorem extract_renderPixel_getElem (p : Vector Bit 67) (k : Nat) (hk : k < 67) :
    (extract (renderPixel p w m h vm) row col v)[k] =
      renderPixel p w m h vm row (midLow col v k) &&& renderPixel p w m h vm row (midHigh col v k) := by
  obtain ⟨j, hj, a, b, hrun⟩ := renderPixel_run p htop hbot (hv.trans hvw) (col + k * v) hvw
  rw [extract_getElem]
  exact sample_eq_middle hv hj hrun

variable (hread : extract (renderPixel (enc67 d) w m h vm) row col v = enc67 e)
include hread

theorem middle_of_extract (k : Nat) (hk : k < 67) :
    renderPixel (enc67 d) w m h vm row (midLow col v k) &&&
      renderPixel (enc67 d) w m h vm row (midHigh col v k) = elementAt (enc67 e) k := by
  rw [elementAt_eq _ hk, ← hread, extract_renderPixel_getElem htop hbot hv hvw _ k hk]

/-- A reading that decodes starts in the first module and ends in the last. -/
theorem ends_of_extract :
    m ≤ midLow col v 0 ∧ midHigh col v 0 < m + w ∧ m + 66 * w ≤ midLow col v 66 := by
  have hw : 0 < w := hv.trans hvw
  have hmid := middle_of_extract htop hbot hv hvw hread
  obtain ⟨hstart, -, -, -, -, -, -, -, -, -, hend⟩ := guardsMatch_enc67 e
  rw [← elementAt_eq _ (by decide)] at hstart hend
  obtain ⟨hlow, -⟩ := (and_eq_one_iff _ _).1 ((hmid 0 (by decide)).trans hstart)
  have hinside : m ≤ midLow col v 0 := by
    by_contra hout
    rw [renderPixel_margin _ htop hbot (not_le.1 hout)] at hlow
    exact absurd hlow (by decide)
  have hmono := shownColumn_monotone (renderPixel (enc67 d) w m h vm row) hv col
  have hfirst : shownColumn (renderPixel (enc67 d) w m h vm row) col v 0 = midHigh col v 0 :=
    if_neg (by simp [hlow])
  have hlast : shownColumn (renderPixel (enc67 d) w m h vm row) col v 66 = midLow col v 66 :=
    if_pos (.inr rfl)
  obtain ⟨hmod0, hmod66⟩ := ends_of_reading d e
    (pos := fun k => (shownColumn (renderPixel (enc67 d) w m h vm row) col v k - m) / w)
    (fun a b hab => Nat.div_le_div_right (Nat.sub_le_sub_right (hmono hab) m)) fun k hk => by
      have hm := (hinside.trans (midLow_le_midHigh col v 0)).trans (hfirst ▸ hmono k.zero_le)
      rw [← renderPixel_eq_elementAt _ htop hbot hw hm]
      exact shownColumn_shows (hmid k hk) (by rintro rfl; exact hend)
  rw [hfirst, Nat.div_eq_zero_iff_lt hw] at hmod0
  rw [hlast] at hmod66
  have := Nat.mul_le_of_le_div _ _ _ hmod66.ge
  have := midLow_le_midHigh col v 0
  omega

/-- The two middle columns of run `k` of a reading that decodes lie in module `k`. -/
theorem middle_in_module (k : Nat) (hk : k < 67) :
    m + k * w ≤ midLow col v k ∧ midHigh col v k < m + k * w + w := by
  obtain ⟨-, hfirst, hlast⟩ := ends_of_extract htop hbot hv hvw hread
  obtain ⟨t, rfl⟩ := Nat.exists_eq_add_of_le hvw
  have hslip : k * t ≤ 66 * t := Nat.mul_le_mul_right t (by omega)
  simp only [midLow, midHigh, Nat.mul_add] at *
  omega

/-- A reading that decodes reads the symbol itself. -/
theorem extract_eq_symbol : extract (renderPixel (enc67 d) w m h vm) row col v = enc67 d := by
  apply Vector.ext
  intro k hk
  obtain ⟨hlow, hhigh⟩ := middle_in_module htop hbot hv hvw hread k hk
  have hle := midLow_le_midHigh col v k
  obtain ⟨i, hi⟩ := Nat.exists_eq_add_of_le hlow
  obtain ⟨i', hi'⟩ := Nat.exists_eq_add_of_le (hlow.trans hle)
  rw [extract_renderPixel_getElem htop hbot hv hvw _ k hk, hi, hi',
    renderPixel_module _ htop hbot hk (by omega), renderPixel_module _ htop hbot hk (by omega),
    BitVec.and_self]

end

/-! ### What decodes is an encoded pattern (R93, R94) -/

theorem guardsMatch_of_dec67 {p : Vector Bit 67} {d : Vector Digit 8} (h : dec67 67 p = .ok d) :
    GuardsMatch p := by
  by_contra hguards
  rw [dec67_eq_structureError (.inr hguards)] at h
  cases h

theorem decodeGroups_of_dec67 {p : Vector Bit 67} {d : Vector Digit 8} (h : dec67 67 p = .ok d) :
    decodeGroups p = some d := by
  have hguards := guardsMatch_of_dec67 h
  cases hgroups : decodeGroups p with
  | none =>
    rw [dec67_eq_unknownSymbolError hguards hgroups] at h
    cases h
  | some e =>
    rw [dec67_eq_ok hguards hgroups] at h
    cases h
    rfl

/-- Guards and groups make up the whole pattern (R79). -/
theorem eq_of_guards_of_groups {p q : Vector Bit 67} (hp : GuardsMatch p) (hq : GuardsMatch q)
    (hleft : ∀ (g : Fin 4) (j : Fin 7), p[3 + 7 * g.val + j.val] = q[3 + 7 * g.val + j.val])
    (hright : ∀ (g : Fin 4) (j : Fin 7), p[36 + 7 * g.val + j.val] = q[36 + 7 * g.val + j.val]) :
    p = q := by
  apply Vector.ext
  intro k hk
  by_cases hl : 3 ≤ k ∧ k < 31
  · have hgroup := hleft ⟨(k - 3) / 7, by omega⟩ ⟨(k - 3) % 7, by omega⟩
    simpa only [show 3 + 7 * ((k - 3) / 7) + (k - 3) % 7 = k by omega] using hgroup
  by_cases hr : 36 ≤ k ∧ k < 64
  · have hgroup := hright ⟨(k - 36) / 7, by omega⟩ ⟨(k - 36) % 7, by omega⟩
    simpa only [show 36 + 7 * ((k - 36) / 7) + (k - 36) % 7 = k by omega] using hgroup
  obtain ⟨p0, p1, p2, p31, p32, p33, p34, p35, p64, p65, p66⟩ := hp
  obtain ⟨q0, q1, q2, q31, q32, q33, q34, q35, q64, q65, q66⟩ := hq
  obtain rfl | rfl | rfl | rfl | rfl | rfl | rfl | rfl | rfl | rfl | rfl :
      k = 0 ∨ k = 1 ∨ k = 2 ∨ k = 31 ∨ k = 32 ∨ k = 33 ∨ k = 34 ∨ k = 35 ∨ k = 64 ∨ k = 65 ∨
        k = 66 := by omega
  exacts [p0.trans q0.symm, p1.trans q1.symm, p2.trans q2.symm, p31.trans q31.symm,
    p32.trans q32.symm, p33.trans q33.symm, p34.trans q34.symm, p35.trans q35.symm,
    p64.trans q64.symm, p65.trans q65.symm, p66.trans q66.symm]

theorem dec67_eq_ok_iff {p : Vector Bit 67} {d : Vector Digit 8} :
    dec67 67 p = .ok d ↔ p = enc67 d := by
  constructor
  · intro h
    have hgroups := decodeGroups_eq_some_iff.1 (decodeGroups_of_dec67 h)
    exact eq_of_guards_of_groups (guardsMatch_of_dec67 h) (guardsMatch_enc67 d)
      (fun g j => ((hgroups g).1 j).trans (leftGroupIs_enc67 d g j).symm)
      (fun g j => ((hgroups g).2 j).trans (rightGroupIs_enc67 d g j).symm)
  · rintro rfl
    exact dec67_enc67 d

theorem enc67_injective {d e : Vector Digit 8} (h : enc67 d = enc67 e) : d = e := by
  have hdec := dec67_enc67 d
  rw [h, dec67_enc67] at hdec
  exact (Decoded.ok.inj hdec).symm

theorem matches_iff {px : Nat → Nat → Bit} {c : Candidate} {d : Vector Digit 8} :
    Matches px c d ↔ extract px c.row c.col c.mw = enc67 d ∧ cksumOK d := by
  rw [Matches, dec67_eq_ok_iff]

/-! ### The search on a rendered raster (R137, R141) -/

/-- Above and below the symbol a reading holds no start guard. -/
theorem row_of_extract {p : Vector Bit 67} {e : Vector Digit 8} {w m h vm row col v : Nat} (hv : 1 ≤ v)
    (hread : extract (renderPixel p w m h vm) row col v = enc67 e) : vm ≤ row ∧ row < vm + h := by
  by_contra hout
  have hwhite : ∀ c, renderPixel p w m h vm row c = 0 := fun c => if_pos (by omega)
  obtain ⟨hstart, -⟩ := guardsMatch_enc67 e
  rw [← hread, extract_getElem, sample_of_shift_le (a := 0) (b := 0) hv (Nat.zero_le _) fun i _ => by
    simp [hwhite]] at hstart
  exact absurd hstart (by decide)

/-- Within the symbol all rows read alike. -/
theorem extract_row_congr (p : Vector Bit 67) {w m h vm row row' : Nat} (hrow : vm ≤ row ∧ row < vm + h)
    (hrow' : vm ≤ row' ∧ row' < vm + h) (col v : Nat) :
    extract (renderPixel p w m h vm) row col v = extract (renderPixel p w m h vm) row' col v := by
  have hin : ¬ (row < vm ∨ vm + h ≤ row) := by omega
  have hin' : ¬ (row' < vm ∨ vm + h ≤ row') := by omega
  exact extract_congr (px' := fun _ => renderPixel p w m h vm row') fun i _ => by
    rw [renderPixel, renderPixel, if_neg hin, if_neg hin']

/-- If some candidate matches, one is located that it does not precede. -/
theorem exists_locate_of_matches {px : Nat → Nat → Bit} {W H : Nat} {c : Candidate}
    {d : Vector Digit 8} (hc : IsCandidate W H c) (hm : Matches px c d) :
    ∃ e c', locate px W H = some (e, c') ∧ ¬ Precedes c c' := by
  cases hl : locate px W H with
  | none => exact absurd hm (locate_eq_none_iff.1 hl c d hc)
  | some found =>
    obtain ⟨-, -, hfirst⟩ := locate_eq_some_iff.1 hl
    exact ⟨_, _, rfl, fun hp => hfirst c d hc hp hm⟩

/-- The place of the first match at the symbol's own module width: as far left of the symbol as a run
tolerates (R125), or as the margin allows. -/
def symbolStart (w m vm : Nat) : Candidate := ⟨w, vm, m - min m ((w - 1) / 2)⟩

section
variable {d e : Vector Digit 8} {w m h vm : Nat}

theorem isCandidate_symbolStart (hw : 1 ≤ w) (hh : 1 ≤ h) :
    IsCandidate (renderWidth w m) (renderHeight h vm) (symbolStart w m vm) := by
  simp only [IsCandidate, symbolStart, renderWidth, renderHeight]
  omega

theorem matches_symbolStart (hw : 1 ≤ w) (hh : 1 ≤ h) (hd : cksumOK d) :
    Matches (renderPixel (enc67 d) w m h vm) (symbolStart w m vm) d :=
  matches_iff.2 ⟨Proofs.renderedSymbolReadsFromShiftedStart d w m h vm vm _ hw (Nat.min_le_right _ _)
    (Nat.min_le_left _ _) le_rfl (by omega), hd⟩

/-- A match at a module width up to the symbol's gives the rendered digits, in the symbol's rows, at a width
close to the symbol's, no further left than a run tolerates. -/
theorem match_in_symbol {c : Candidate} (hmw : 1 ≤ c.mw) (hle : c.mw ≤ w)
    (hm : Matches (renderPixel (enc67 d) w m h vm) c e) :
    e = d ∧ vm ≤ c.row ∧ c.row < vm + h ∧ 65 * w < 66 * c.mw ∧ m ≤ c.col + (c.mw - 1) / 2 := by
  obtain ⟨hread, -⟩ := matches_iff.1 hm
  obtain ⟨htop, hbot⟩ := row_of_extract hmw hread
  obtain ⟨hleft, hfirst, hlast⟩ := ends_of_extract htop hbot hmw hle hread
  simp only [midLow, midHigh] at hleft hfirst hlast
  exact ⟨enc67_injective (hread.symm.trans (extract_eq_symbol htop hbot hmw hle hread)), htop, hbot,
    by omega, by omega⟩

/-- Where the search finds the symbol of a rendered raster. -/
theorem locate_rendered (hw : 1 ≤ w) (hh : 1 ≤ h) (hd : cksumOK d) :
    ∃ c, locate (renderPixel (enc67 d) w m h vm) (renderWidth w m) (renderHeight h vm) = some (d, c) ∧
      c.mw ≤ w ∧ 65 * w < 66 * c.mw ∧ c.row = vm ∧
      (c.mw = w → c.col = m - min m ((w - 1) / 2)) := by
  obtain ⟨e, c, hl, hnot⟩ := exists_locate_of_matches (isCandidate_symbolStart hw hh)
    (matches_symbolStart (m := m) (vm := vm) hw hh hd)
  obtain ⟨hc, hm, hfirst⟩ := locate_eq_some_iff.1 hl
  simp only [Precedes, symbolStart, not_or, not_and, not_lt] at hnot
  obtain ⟨hle, hafter⟩ := hnot
  obtain ⟨hmw, hwidth, hrow, hcol⟩ := hc
  obtain ⟨rfl, htop, hbot, hnear, hleft⟩ := match_in_symbol hmw hle hm
  have hfirstRow : c.row = vm := by
    by_contra hne
    have hsame := extract_row_congr (enc67 e) (w := w) (m := m) ⟨htop, hbot⟩
      (row' := vm) ⟨le_rfl, by omega⟩ c.col c.mw
    refine hfirst ⟨c.mw, vm, c.col⟩ e ⟨hmw, hwidth, htop.trans_lt hrow, hcol⟩
      (.inr ⟨rfl, .inl (show vm < c.row by omega)⟩) ?_
    rw [matches_iff] at hm ⊢
    exact ⟨hsame ▸ hm.1, hm.2⟩
  refine ⟨c, hl, hle, hnear, hfirstRow, fun heq => ?_⟩
  have := (hafter heq.symm).2 hfirstRow.symm
  omega

end

/-- `LOC` on a raster that shows a rendered symbol: the state with the rendered digits and the place of the
first match written. -/
theorem execLoc_rendered {s : State} {d : Vector Digit 8} {w m h vm : Nat} (hw : 1 ≤ w) (hh : 1 ≤ h)
    (hd : cksumOK d) (hshows : ShowsRendered s d w m h vm) (hgeom : s.geomOK) :
    ∃ c, IsCandidate s.w.toNat s.h.toNat c ∧
      execLoc s = .next (((s.setIdentifier d).setMatch c.mw c.row c.col).complete .ok) ∧
      c.mw ≤ w ∧ 65 * w < 66 * c.mw ∧ c.row = vm ∧
      (c.mw = w → c.col = m - min m ((w - 1) / 2)) := by
  obtain ⟨hwidth, hheight, hpixel⟩ := hshows
  obtain ⟨c, hl, hplace⟩ := locate_rendered (m := m) (vm := vm) hw hh hd
  have hloc : locate s.pixel s.w.toNat s.h.toNat = some (d, c) := by
    rw [locate_congr hpixel, hwidth, hheight, hl]
  exact ⟨c, isCandidate_of_locate hloc, execLoc_of_locate_some hgeom hloc, hplace⟩

end Sys2Proof.Machine

namespace Sys2Proof.Proofs

open Sys2Proof.Machine

/-- Settles O28: whatever width the first match has, its digits are the rendered ones and its row the
symbol's first. -/
theorem locReturnsTheRenderedIdentifier : Obligations.LocReturnsTheRenderedIdentifier := by
  unfold Obligations.LocReturnsTheRenderedIdentifier
  intro s d w m h vm hw hh hd hshows hgeom
  obtain ⟨c, hc, hexec, -, -, hrow, -⟩ := execLoc_rendered hw hh hd hshows hgeom
  obtain ⟨-, erow, -⟩ := isCandidate_toNat_ofNat hc
  exact ⟨_, hexec, rfl, rfl, rfl, erow.trans hrow⟩

/-- Settles O27: the place of the first match, read back from the match registers. -/
theorem locOnRenderedSymbol : Obligations.LocOnRenderedSymbol := by
  unfold Obligations.LocOnRenderedSymbol
  intro s d w m h vm hw hh hd hshows hgeom
  obtain ⟨c, hc, hexec, hle, hnear, hrow, hcol⟩ := execLoc_rendered hw hh hd hshows hgeom
  obtain ⟨emw, erow, ecol⟩ := isCandidate_toNat_ofNat hc
  have hwide : w < 2 * (BitVec.ofNat 16 c.mw).toNat := by omega
  have hlow : (BitVec.ofNat 16 c.row).toNat < vm + h := by omega
  exact ⟨_, hexec, rfl, setIdentifier_valid (s := s) hd, emw.trans_le hle, hwide,
    (erow.trans hrow).ge, hlow,
    fun heq => ⟨rfl, erow.trans hrow, ecol.trans (hcol (emw.symm.trans heq))⟩⟩

/-- Settles O29: at these widths the first match has the symbol's own width, which tolerates no shift. -/
theorem locReadsRenderedSymbolAtWidthsOneAndTwo :
    Obligations.LocReadsRenderedSymbolAtWidthsOneAndTwo := by
  unfold Obligations.LocReadsRenderedSymbolAtWidthsOneAndTwo
  intro s d w m h vm hw hh hd hshows hgeom
  have hpos : 1 ≤ w := by omega
  obtain ⟨c, -, hexec, hle, hnear, hrow, hcol⟩ := execLoc_rendered hpos hh hd hshows hgeom
  have hmw : c.mw = w := by omega
  have hstart : c.col = m := by
    have := hcol hmw
    omega
  rw [hmw, hrow, hstart] at hexec
  exact hexec

end Sys2Proof.Proofs
end

section
/-! SUPPORT. How commands end (R150 to R154), and what a step does to `FLT` and to the host's list: the proofs
of O30, O31, O36, O37 and O52. -/

namespace Sys2Proof.Machine

/-! ### How a command ends -/

theorem exec_completes (i : Instr) (s : State) : ∃ t, exec i s = .next t := by
  cases i with
  | chk => simp only [exec, execChk]; split <;> exact ⟨_, rfl⟩
  | val => simp only [exec, execVal]; split_ifs <;> exact ⟨_, rfl⟩
  | enc => simp only [exec, execEnc]; split <;> exact ⟨_, rfl⟩
  | dec => simp only [exec, execDec]; split <;> exact ⟨_, rfl⟩
  | smp => simp only [exec, execSmp]; split <;> exact ⟨_, rfl⟩
  | ext => simp only [exec, execExt]; split <;> exact ⟨_, rfl⟩
  | loc =>
    simp only [exec, execLoc]
    split
    · exact ⟨_, rfl⟩
    · split <;> exact ⟨_, rfl⟩

/-- A command ends with `OK`, or it raises one of its outcomes and, but for the `VALID` of `VAL`, has written
nothing before (R151, R154). -/
theorem exec_ok_or_raised {i : Instr} {s t : State} (h : exec i s = .next t) :
    t.status.code = .ok ∨ ∃ c ∈ possibleOutcomes i,
      t = (s.setValid (if i = .val then 0 else s.status.valid)).complete c := by
  cases i with
  | chk =>
    obtain ⟨-, d, rfl⟩ | ⟨-, rfl⟩ := execChk_cases h
    · exact .inl rfl
    · exact .inr ⟨.identifierFormatError, by decide, rfl⟩
  | val =>
    obtain ⟨-, rfl⟩ | ⟨-, -, rfl⟩ | ⟨-, rfl⟩ := execVal_cases h
    · exact .inr ⟨.identifierFormatError, by decide, rfl⟩
    · exact .inr ⟨.checksumError, by decide, rfl⟩
    · exact .inl rfl
  | enc =>
    obtain ⟨-, rfl⟩ | ⟨-, rfl⟩ := execEnc_cases h
    · exact .inr ⟨.identifierFormatError, by decide, rfl⟩
    · exact .inl rfl
  | dec =>
    obtain ⟨-, rfl⟩ | ⟨-, rfl⟩ | ⟨d, -, rfl⟩ := execDec_cases h
    · exact .inr ⟨.structureError, by decide, rfl⟩
    · exact .inr ⟨.unknownSymbolError, by decide, rfl⟩
    · exact .inl rfl
  | smp =>
    obtain ⟨-, rfl⟩ | ⟨-, rfl⟩ := execSmp_cases h
    · exact .inr ⟨.rangeError, by decide, rfl⟩
    · exact .inl rfl
  | ext =>
    obtain ⟨-, rfl⟩ | ⟨-, rfl⟩ := execExt_cases h
    · exact .inr ⟨.rangeError, by decide, rfl⟩
    · exact .inl rfl
  | loc =>
    obtain ⟨-, rfl⟩ | ⟨-, -, rfl⟩ | ⟨-, d, c, -, rfl⟩ := execLoc_cases h
    · exact .inr ⟨.rangeError, by decide, rfl⟩
    · exact .inr ⟨.notFoundError, by decide, rfl⟩
    · exact .inl rfl

theorem ok_mem_possibleOutcomes (i : Instr) : .ok ∈ possibleOutcomes i := by
  cases i <;> decide

theorem exec_code_mem {i : Instr} {s t : State} (h : exec i s = .next t) :
    t.status.code ∈ possibleOutcomes i := by
  obtain hok | ⟨c, hc, rfl⟩ := exec_ok_or_raised h
  · exact hok ▸ ok_mem_possibleOutcomes i
  · exact hc

/-! ### `FLT` (R152) -/

/-- The faults are `RangeError` and `IllegalCommand` (R152). -/
theorem isFault_iff {c : OutcomeCode} : c.isFault = true ↔ c = .rangeError ∨ c = .illegalCommand := by
  cases c <;> decide

theorem written_flt {i : Instr} {s u : State} (h : Written s i u) : u.status.flt = s.status.flt := by
  cases h <;> rfl

/-- No destination of a command is `FLT`, so only its completion can have set it. -/
theorem exec_flt {i : Instr} {s t : State} (h : exec i s = .next t) :
    t.status.flt = if t.status.code.isFault then 1 else s.status.flt := by
  obtain ⟨u, c, hw, rfl⟩ := exec_written h
  show (if c.isFault then 1 else u.status.flt) = if c.isFault then 1 else s.status.flt
  rw [written_flt hw]

theorem runCommand_flt {c : Byte} {s t : State} (h : runCommand c s = .next t) :
    t.status.flt = if t.status.code.isFault then 1 else s.status.flt := by
  obtain ⟨i, -, hx⟩ | ⟨-, rfl⟩ := runCommand_cases h
  · exact exec_flt hx
  · rfl

/-- A step keeps `FLT` or sets it, unless it is a reset event. -/
theorem step_flt {s t : State} (h : step s = .next t) :
    t.status.flt = s.status.flt ∨ t.status.flt = 1 ∨
      s.pending.head? = some .reset ∧ t.status.flt = 0 := by
  obtain ⟨-, rfl⟩ | ⟨e, rest, u, hp, rfl, hcase⟩ := step_cases h
  · exact .inl rfl
  obtain ⟨_, _, -, -, rfl⟩ | ⟨_, v, r, -, -, -, -, rfl⟩ | ⟨_, _, i, -, -, -, hx⟩ | ⟨_, _, -, -, rfl⟩ |
    ⟨_, -, -, rfl⟩ | ⟨a, b, -, -, rfl⟩ | ⟨rfl, rfl⟩ := hcase
  · exact .inl rfl
  · exact .inl (by rw [writeReg_status])
  · rw [exec_flt hx]
    split
    · exact .inr (.inl rfl)
    · exact .inl rfl
  · exact .inr (.inl rfl)
  · exact .inl rfl
  · exact .inl rfl
  · exact .inr (.inr ⟨by rw [hp]; rfl, rfl⟩)

/-! ### The host's list -/

theorem written_pending {i : Instr} {s u : State} (h : Written s i u) : u.pending = s.pending := by
  cases h <;> rfl

theorem exec_pending {i : Instr} {s t : State} (h : exec i s = .next t) : t.pending = s.pending := by
  obtain ⟨u, c, hw, rfl⟩ := exec_written h
  rw [complete_pending, written_pending hw]

/-- A step takes the next event from the host's list and adds none. -/
theorem step_pending {s t : State} (h : step s = .next t) : t.pending = s.pending.tail := by
  obtain ⟨hp, rfl⟩ | ⟨e, rest, u, hp, rfl, hcase⟩ := step_cases h
  · rw [hp, List.tail_nil]
  rw [hp, List.tail_cons]
  obtain ⟨_, _, -, -, rfl⟩ | ⟨_, v, r, -, -, -, -, rfl⟩ | ⟨_, _, i, -, -, -, hx⟩ | ⟨_, _, -, -, rfl⟩ |
    ⟨_, -, -, rfl⟩ | ⟨a, b, -, -, rfl⟩ | ⟨-, rfl⟩ := hcase
  · rfl
  · rw [writeReg_pending]
  · exact exec_pending hx
  · rfl
  · rfl
  · rfl
  · rfl

theorem noResetPending_step {s t : State} (hs : NoResetPending s) (h : step s = .next t) :
    NoResetPending t := by
  unfold NoResetPending at hs ⊢
  rw [step_pending h]
  exact fun hmem => hs (List.mem_of_mem_tail hmem)

/-! ### Runs -/

/-- What every step keeps, a run keeps. -/
theorem runSteps_keeps {P : State → Prop} (hstep : ∀ s t, P s → step s = .next t → P t) {n : Nat}
    {s t : State} (hs : P s) (h : runSteps n s = .next t) : P t := by
  induction n generalizing s with
  | zero =>
    cases h
    exact hs
  | succ n ih =>
    obtain ⟨u, hu, hrun⟩ := runSteps_succ h
    exact ih (hstep s u hs hu) hrun

/-- The invariant's `faultFlagged`, read from `FLT`. -/
theorem isFault_of_noFaultRecorded {s : State} (hinv : UnitInvariant s) (h : NoFaultRecorded s) :
    s.status.code.isFault = false := by
  refine Bool.eq_false_iff.2 fun hfault => ?_
  have hset : s.status.flt = 1 := hinv.faultFlagged hfault
  exact absurd (hset.symm.trans h) (by decide)

/-- Without a reset event a step clears no recorded fault. -/
theorem noFaultRecorded_of_step {s t : State} (hs : NoResetPending s) (h : step s = .next t)
    (ht : NoFaultRecorded t) : NoFaultRecorded s := by
  unfold NoFaultRecorded at ht ⊢
  obtain hkept | hset | ⟨hreset, -⟩ := step_flt h
  · exact hkept.symm.trans ht
  · exact absurd (hset.symm.trans ht) (by decide)
  · exact absurd (List.mem_of_head? hreset) hs

theorem noFaultRecorded_of_run {n : Nat} {s t : State} (hs : NoResetPending s)
    (h : runSteps n s = .next t) (ht : NoFaultRecorded t) : NoFaultRecorded s := by
  induction n generalizing s with
  | zero =>
    cases h
    exact ht
  | succ n ih =>
    obtain ⟨u, hu, hrun⟩ := runSteps_succ h
    exact noFaultRecorded_of_step hs hu (ih (noResetPending_step hs hu) hrun)

end Sys2Proof.Machine

namespace Sys2Proof.Proofs

open Sys2Proof.Machine

/-- Settles O52: the invariant by O38, the host's list by `step_pending`, and `FLT` by `step_flt`. -/
theorem stepWithoutResetKeepsRecordedFaults : Obligations.StepWithoutResetKeepsRecordedFaults := by
  unfold Obligations.StepWithoutResetKeepsRecordedFaults
  intro s t hinv hnr h
  refine ⟨stepKeepsTheInvariant s t hinv h, noResetPending_step hnr h, fun ht => ?_⟩
  have hs : NoFaultRecorded s := noFaultRecorded_of_step hnr h ht
  exact ⟨hs, isFault_of_noFaultRecorded hinv hs⟩

/-- Settles O31: what a raised outcome leaves, and the completion of a reserved word. -/
theorem failedCommandWritesOnlyStatus : Obligations.FailedCommandWritesOnlyStatus := by
  unfold Obligations.FailedCommandWritesOnlyStatus
  refine ⟨fun i s t h hfailed => ?_, fun c e s hd => runCommand_of_reserved (by simp [hd]) s⟩
  obtain hok | ⟨c, -, rfl⟩ := exec_ok_or_raised h
  · exact absurd hok hfailed
  · rfl

/-- Settles O36: completions set `FLT` for the two faults, and of all steps only a reset event clears it. -/
theorem faultFlagIsSticky : Obligations.FaultFlagIsSticky := by
  unfold Obligations.FaultFlagIsSticky
  refine ⟨fun c s t h => ?_, fun i s => runCommand_of_decode (decode_encode i) s, fun s t h hset => ?_⟩
  · rw [runCommand_flt h, if_congr isFault_iff rfl rfl]
  · obtain hkept | hset' | hreset := step_flt h
    · exact .inl (hkept.trans hset)
    · exact .inl hset'
    · exact .inr hreset

/-- Settles O37: the first `n` steps keep the invariant, and the last `m` clear no fault recorded by then. -/
theorem noFaultAtEndMeansNoFaultAnywhere : Obligations.NoFaultAtEndMeansNoFaultAnywhere := by
  unfold Obligations.NoFaultAtEndMeansNoFaultAnywhere
  intro n m s u t hinv hnr hfirst hlast ht
  have huinv : UnitInvariant u := runSteps_keeps stepKeepsTheInvariant hinv hfirst
  have hunr : NoResetPending u := runSteps_keeps (fun _ _ => noResetPending_step) hnr hfirst
  have hu : NoFaultRecorded u := noFaultRecorded_of_run hunr hlast ht
  exact ⟨hu, isFault_of_noFaultRecorded huinv hu⟩

/-- Settles O30: the next state exists, and its `CODE` is one of the command's outcomes. -/
theorem everyCommandCompletes : Obligations.EveryCommandCompletes := by
  unfold Obligations.EveryCommandCompletes
  intro i s
  obtain ⟨t, ht⟩ := exec_completes i s
  exact ⟨t, ht, exec_code_mem ht⟩

end Sys2Proof.Proofs
end

section
/-! SUPPORT. The reset event (R175), commands straight after reset (R176) and the identifier completed with the
digit of `CHK` (R178): the proofs of O10, O42 and O43. -/

namespace Sys2Proof.Machine

/-! ### The check digit as eighth character (R96, R178) -/

/-- The digit `CHK` leaves, by the property that defines it rather than by its formula. -/
theorem execChk_leaves_checkDigit {s t : State} (hwf : wellFormedPrefix s.idlen s.idbuf)
    (h : execChk s = .next t) :
    ∃ d : Digit, t = (s.setCkd d).complete .ok ∧ (charSum s.idbuf + d.val) % 10 = 0 := by
  refine ⟨_, Host.Outcome.next.inj (h.symm.trans (if_pos hwf)), ?_⟩
  rw [← weightedSum_digitVal hwf.2]
  exact (eq_checksum7_iff ..).1 rfl

/-- `CKD` is wide enough for a digit (R25). -/
theorem ofNat_digit_toNat (d : Digit) : (BitVec.ofNat 4 d.val).toNat = d.val :=
  Nat.mod_eq_of_lt (Nat.lt_trans d.isLt (by decide))

section
variable {buf : Vector Byte 8} (h : ∀ i : Fin 7, isDigitChar (buf[i.val]'(by omega)))
include h

theorem isDigitChar_set_last (d : Digit) (i : Fin 8) : isDigitChar (buf.set 7 (digitChar d))[i] := by
  by_cases hi : i.val = 7
  · simpa [hi] using isDigitChar_digitChar d
  · have hset : (buf.set 7 (digitChar d))[i] = buf[i] := Vector.getElem_set_ne _ _ (Ne.symm hi)
    exact hset ▸ h ⟨i.val, by omega⟩

/-- The eighth character enters the checksum test with weight 1 and leaves the sum of the others alone. -/
theorem validId_set_last {d : Digit} (hsum : (charSum buf + d.val) % 10 = 0) :
    validId 8 (buf.set 7 (digitChar d)) := by
  have hchars := isDigitChar_set_last h d
  have hprefix : charSum (buf.set 7 (digitChar d)) = charSum buf :=
    charSum_congr fun i => Vector.getElem_set_ne _ _ (by omega)
  refine ⟨⟨rfl, hchars⟩, (cksumOK_digits_iff hchars).2 ?_⟩
  simpa [hprefix] using hsum

end

/-! ### The reset event and the reset state (R41, R175) -/

theorem step_reset {s : State} {rest : List HostEvent} (h : s.pending = .reset :: rest) :
    step s = .next ({ s with pending := rest } : State).resetUnit := step_cons h

@[simp] theorem readReg_resetUnit (s : State) (r : Reg) :
    s.resetUnit.readReg r = State.reset.readReg r := by
  cases r <;> rfl

theorem not_wellFormedPrefix_reset : ¬ wellFormedPrefix State.reset.idlen State.reset.idbuf :=
  fun h => absurd h.1 (by decide)

theorem not_wellFormedId_reset : ¬ wellFormedId State.reset.idlen State.reset.idbuf :=
  fun h => absurd h.1 (by decide)

/-- `MW` is 0 after reset, which no run of samples allows. -/
theorem rangeBad_reset (run : Nat) : State.reset.rangeBad run := .inl rfl

/-- The empty raster fits every capacity. -/
theorem geomOK_reset : State.reset.geomOK := Nat.zero_le Config.rasterCap

end Sys2Proof.Machine

namespace Sys2Proof.Proofs

open Sys2Proof.Machine

/-- Settles O10: the character written is that of the check digit, whose sum with the prefix is a multiple
of 10. -/
theorem checkDigitCompletesAnIdentifier : Obligations.CheckDigitCompletesAnIdentifier := by
  unfold Obligations.CheckDigitCompletesAnIdentifier
  intro s t hwf hchk
  obtain ⟨d, rfl, hsum⟩ := execChk_leaves_checkDigit hwf hchk
  have hchar : BitVec.ofNat 8 (0x30 + ((s.setCkd d).complete .ok).ckd.toNat) = digitChar d := by
    rw [complete_ckd, setCkd_ckd, ofNat_digit_toNat, digitChar]
  have hvalid := validId_set_last hwf.2 hsum
  rw [← hchar] at hvalid
  exact ⟨_, execVal_of_valid hvalid, rfl, rfl⟩

/-- Settles O42: the registers are those of the reset state, by O40. -/
theorem resetEventRestoresEveryRegister : Obligations.ResetEventRestoresEveryRegister := by
  unfold Obligations.ResetEventRestoresEveryRegister
  intro s rest hp
  refine ⟨_, step_reset hp, fun r => ?_, rfl, rfl, rfl, rfl, rfl⟩
  rw [readReg_resetUnit, registersAfterReset r]

/-- Settles O43: lengths, module width and raster are 0. `VAL` writes the 0 that `VALID` holds, and `LOC` is
O25 for the empty raster. -/
theorem commandsStraightAfterReset : Obligations.CommandsStraightAfterReset := by
  unfold Obligations.CommandsStraightAfterReset
  refine ⟨?chk, ?val, ?enc, ?dec, ?smp, ?ext, ?loc⟩
  case chk => exact execChk_of_malformed not_wellFormedPrefix_reset
  case val => exact execVal_of_malformed not_wellFormedId_reset
  case enc => exact execEnc_of_malformed not_wellFormedId_reset
  case dec => exact execDec_of_structureError (s := State.reset) (dec67_eq_structureError (.inl (by decide)))
  case smp => exact execSmp_of_rangeBad (rangeBad_reset 1)
  case ext => exact execExt_of_rangeBad (rangeBad_reset 67)
  case loc => exact locOnDegenerateRasterFindsNothing State.reset (.inr rfl) geomOK_reset

end Sys2Proof.Proofs
end
